-- ==== Sys2Proof/Word.lean ====
section
/-! DEFINITION. The widths of the block's values (spec 00_scope.md R7, R10): all are unsigned bit vectors. -/

namespace Sys2Proof

/-- A byte: 8 bits, bit 0 the least significant (R10). -/
abbrev Byte := BitVec 8

/-- The width of CRC, CSUM, the checksum and the Sequence Number: 32 bits (R7: `CRC_W`, `SEQ_W`). -/
abbrev Word := BitVec 32

/-- The width of the Payload: 64 bits (R7: `PAY_W`). -/
abbrev DWord := BitVec 64

end Sys2Proof
end

