-- ==== Sys2Proof/Config.lean ====
section
/-! DEFINITION. The constants the spec fixes (00_scope.md R7, R8) and the free values it leaves open (R8, R31, R150). -/

namespace Sys2Proof.Config

/-- `CRC_INIT`: the register before the first byte of a computation, all ones (R7). -/
def crcInit : Word := 0xFFFFFFFF

/-- `CRC_POLY`: the constant exclusive-ORed in after a shift that lost a 1; the bit-reversal of 0x04C11DB7 (R7, R9). -/
def crcPoly : Word := 0xEDB88320

/-- `CRC_XOROUT`: the final complement as an exclusive-OR mask (R7). -/
def crcXorOut : Word := 0xFFFFFFFF

/-- `BITS_PER_BYTE`: bit steps per input byte (R7). -/
def bitsPerByte : Nat := 8

/-- `SEQ_OFF`: offset of the Sequence field in the packet (R7, R52). -/
abbrev seqOff : Nat := 0

/-- `SEQ_LEN`: size in bytes of the Sequence field (R7, R52). -/
abbrev seqLen : Nat := 4

/-- `PAY_OFF`: offset of the Payload field (R7, R52). -/
abbrev payOff : Nat := 4

/-- `PAY_LEN`: size in bytes of the Payload field (R7, R52). -/
abbrev payLen : Nat := 8

/-- `SUM_OFF`: offset of the Checksum field (R7, R52). -/
abbrev sumOff : Nat := 12

/-- `SUM_LEN`: size in bytes of the Checksum field (R7, R52). -/
abbrev sumLen : Nat := 4

/-- `CIN_LEN`: length in bytes of the checksum input, the packet's bytes [0,12) (R7). -/
abbrev cinLen : Nat := 12

/-- `PKT_LEN`: the packet's size, and the size of the packet space (R7, R40). -/
abbrev pktLen : Nat := 16

/-- `CORRUPT_XOR`: the corruption constant (R7). -/
def corruptXor : Word := 0xDEADBEEF

/-- `RESET_CRC`: what CRC holds after power-on. A FREE VALUE: the spec leaves it open (R8, R31, R150), so it has no body
and nothing can be proved of it (log entry 4). -/
opaque resetCrc : Word

/-- `RESET_CSUM`: what CSUM holds after power-on. A free value like `resetCrc` (log entry 4). -/
opaque resetCsum : Word

/-- `RESET_PKT`: what PKT holds after power-on. A free value like `resetCrc` (log entry 4). -/
opaque resetPkt : Vector Byte 16

end Sys2Proof.Config
end

