-- ==== Sys2Proof/Machine/ByteOrder.lean ====
section
/-! DEFINITION. The field serializer and the big-endian byte orderer (spec 41_packet_encoder.md R100 to R102,
20_memory.md R45): the one place where byte order is decided. -/

namespace Sys2Proof

/-- The `n` bytes of a value of `8n` bits, most significant first: byte `i` is `v[8(n-1-i)+7 : 8(n-1-i)]` (R45). -/
def beBytes (n : Nat) (v : BitVec (8 * n)) : List Byte :=
  (List.range n).map fun i => v.extractLsb' (8 * (n - 1 - i)) 8

/-- `be32` (R100). -/
def be32 (v : Word) : List Byte := beBytes 4 v

/-- `be64` (R101). -/
def be64 (v : DWord) : List Byte := beBytes 8 v

/-- A byte sequence read as one number, the first byte the most significant (R12, R61). -/
def beNat : List Byte → Nat
  | [] => 0
  | b :: bs => b.toNat * 256 ^ bs.length + beNat bs

/-- `unbe32([a, b, c, d])`: the inverse of `be32` (R102). -/
def unbe32 (a b c d : Byte) : Word := BitVec.ofNat 32 (beNat [a, b, c, d])

/-- `unbe64` over eight bytes: the inverse of `be64` (R102). -/
def unbe64 (a b c d e f g h : Byte) : DWord := BitVec.ofNat 64 (beNat [a, b, c, d, e, f, g, h])

end Sys2Proof
end

