-- ==== Sys2Proof/Syntax.lean ====
section
/-! DEFINITION. The four commands, the frames that carry them, the causes of the one exception, and assembly lines
(spec 30_encoding.md, 60_exceptions.md). -/

namespace Sys2Proof

/-- The commands: one constructor per row of spec/opcode_table.json (30_encoding.md R66). Every operand has exactly its
declared width, so a value outside its range cannot be written down (R65, R112). -/
inductive Instr where
  /-- CRCINIT: begin a checksum computation (R89). -/
  | crcinit
  /-- CRCBYTE imm8: take one byte of the stream (R90). -/
  | crcbyte (imm8 : Byte)
  /-- CRCFIN: finish a checksum computation (R91). -/
  | crcfin
  /-- ENCODE seq, payload, c: build one packet; `c` is the corrupt flag (R111). -/
  | encode (seq : Word) (payload : DWord) (c : Bool)
  deriving DecidableEq, Repr

/-- A frame as the command port presents it: a sequence of L bytes with L at least 1 (R60). The first byte is kept apart,
so a frame of zero bytes cannot be written down (R60, R163). -/
structure Frame where
  /-- Byte 0, the opcode. -/
  op : Byte
  /-- Bytes 1 to L-1, in order. -/
  args : List Byte
  deriving DecidableEq, Repr

/-- The causes of IllegalCommand (60_exceptions.md R132). -/
inductive IllegalCause where
  /-- Byte 0 is none of 0x01, 0x02, 0x03, 0x10. -/
  | badOpcode
  /-- The opcode is legal and the frame's length is not its format's. -/
  | badLength
  /-- An ENCODE frame of 14 bytes whose `rsv` field is not zero. -/
  | badReserved
  deriving DecidableEq, Repr

/-- A line of assembly before its operands are range-checked (30_encoding.md R73), and the two pseudo-commands
(R74, R75). Operands are the numbers as written. -/
inductive AsmCommand where
  /-- `CRCINIT` -/
  | crcinit
  /-- `CRCBYTE imm8` -/
  | crcbyte (imm8 : Nat)
  /-- `CRCFIN` -/
  | crcfin
  /-- `ENCODE seq, payload, c` -/
  | encode (seq payload c : Nat)
  /-- `COMPUTE b0, b1, ..., b(n-1)` with n at least 0 (R74). -/
  | compute (data : List Nat)
  /-- `RECHECK` (R75). -/
  | recheck
  deriving DecidableEq, Repr

end Sys2Proof
end

