-- ==== Sys2Proof/Machine/Operands.lean ====
section
/-! DEFINITION. Frames as bytes and as bits, and the operand forms of the three formats
(spec 30_encoding.md R61 to R65). -/

namespace Sys2Proof

/-- All L bytes of a frame, byte 0 first (R60). -/
def Frame.bytes (f : Frame) : List Byte := f.op :: f.args

/-- L, the length that the port gives with the frame (R60). -/
def Frame.length (f : Frame) : Nat := f.args.length + 1

/-- `bits`: the frame as one value of 8L bits, byte 0 the most significant (R61). -/
def Frame.bits (f : Frame) : Nat := beNat f.bytes

/-- Format N has no operand (R62): the bytes after the opcode, accepted when there are none. -/
def operandsN : List Byte → Option Unit
  | [] => some ()
  | _ => none

/-- Format B: the byte after the opcode is `imm8` (R63, R65); any other number of bytes is not this format. -/
def operandsB : List Byte → Option Byte
  | [imm8] => some imm8
  | _ => none

/-- Format E: the thirteen bytes after the opcode are `flags`, `seq` and `payload`, most significant byte first
(R64, R65); any other number of bytes is not this format. -/
def operandsE : List Byte → Option (Byte × Word × DWord)
  | [flags, s0, s1, s2, s3, p0, p1, p2, p3, p4, p5, p6, p7] =>
      some (flags, unbe32 s0 s1 s2 s3, unbe64 p0 p1 p2 p3 p4 p5 p6 p7)
  | _ => none

/-- The `rsv` field is zero: bits 7:1 of the flags byte (R64). -/
def reservedClear (flags : Byte) : Bool := flags &&& 0xFE == 0

/-- The corrupt flag: bit 0 of the flags byte (R64). -/
def corruptFlag (flags : Byte) : Bool := flags.getLsbD 0

/-- The flags byte that carries a corrupt flag: 0x00 or 0x01 (R64, R71). -/
def flagsByte (c : Bool) : Byte := if c then 0x01 else 0x00

end Sys2Proof
end

