-- ==== Sys2Proof/Decode.lean ====
section
/-! DEFINITION. The opcode map, the total decoder and the encoder (spec 30_encoding.md R66, R67, R71;
60_exceptions.md R132). -/

namespace Sys2Proof

/-- `OP_CRCINIT` (R8, R66). -/
def opCrcinit : Byte := 0x01

/-- `OP_CRCBYTE` (R8, R66). -/
def opCrcbyte : Byte := 0x02

/-- `OP_CRCFIN` (R8, R66). -/
def opCrcfin : Byte := 0x03

/-- `OP_ENCODE` (R8, R66). -/
def opEncode : Byte := 0x10

/-- The cause code carried by the response (60_exceptions.md R132). -/
def IllegalCause.code : IllegalCause → Nat
  | .badOpcode => 1
  | .badLength => 2
  | .badReserved => 3

/-- R67: total on frames; the checks are made in the order opcode, length, reserved bits (R133). -/
def decode (f : Frame) : Except IllegalCause Instr :=
  if f.op = opCrcinit then
    match operandsN f.args with
    | none => .error .badLength
    | some _ => .ok .crcinit
  else if f.op = opCrcbyte then
    match operandsB f.args with
    | none => .error .badLength
    | some imm8 => .ok (.crcbyte imm8)
  else if f.op = opCrcfin then
    match operandsN f.args with
    | none => .error .badLength
    | some _ => .ok .crcfin
  else if f.op = opEncode then
    match operandsE f.args with
    | none => .error .badLength
    | some (flags, seq, payload) =>
      if reservedClear flags then .ok (.encode seq payload (corruptFlag flags)) else .error .badReserved
  else .error .badOpcode

/-- R71: the frame of a command, the inverse of `decode` on legal commands. -/
def encode : Instr → Frame
  | .crcinit => ⟨opCrcinit, []⟩
  | .crcbyte imm8 => ⟨opCrcbyte, [imm8]⟩
  | .crcfin => ⟨opCrcfin, []⟩
  | .encode seq payload c => ⟨opEncode, flagsByte c :: (be32 seq ++ be64 payload)⟩

/-- A row of the match and mask table of R66, in the bit numbering of R61. -/
structure OpcodeRow where
  mnemonic : String
  lengthBytes : Nat
  matchBits : Nat
  maskBits : Nat
  deriving DecidableEq, Repr

/-- The match and mask table of R66, row by row. -/
def opcodeTable : List OpcodeRow :=
  [⟨"CRCINIT", 1, 0x01, 0xFF⟩,
   ⟨"CRCBYTE", 2, 0x0200, 0xFF00⟩,
   ⟨"CRCFIN", 1, 0x03, 0xFF⟩,
   ⟨"ENCODE", 14, 0x1000000000000000000000000000, 0xFFFE000000000000000000000000⟩]

/-- "a frame matches a row when its length is the row's and `bits and mask = match`" (R66). -/
def rowMatches (r : OpcodeRow) (f : Frame) : Bool :=
  f.length == r.lengthBytes && f.bits &&& r.maskBits == r.matchBits

/-- The row of the table a command belongs to. -/
def Instr.mnemonic : Instr → String
  | .crcinit => "CRCINIT"
  | .crcbyte _ => "CRCBYTE"
  | .crcfin => "CRCFIN"
  | .encode _ _ _ => "ENCODE"

/-- The `n` bytes of a number below 256^n, the most significant first: the frame numbering of R61 read backwards. -/
def bytesOfNat : Nat → Nat → List Byte
  | 0, _ => []
  | n + 1, w => BitVec.ofNat 8 (w / 256 ^ n) :: bytesOfNat n w

/-- The frame whose `bits` (R61) are `w` and whose length is `nbits / 8` bytes: the frame is the one word the table
numbers, its byte 0 in the top eight bits (log entry 8). None for no byte at all: there is no empty frame (R60). -/
def frameOfTableWord (nbits w : Nat) : Option Frame :=
  match bytesOfNat (nbits / 8) w with
  | [] => none
  | op :: args => some ⟨op, args⟩

/-- What the decoder reads from a table word (the host's view of the decoder). -/
def decodeTableWord (nbits w : Nat) : Option Instr :=
  match frameOfTableWord nbits w with
  | none => none
  | some f => (decode f).toOption

end Sys2Proof
end

