-- ==== Sys2Proof/Machine/Memory.lean ====
section
/-! DEFINITION. The packet space PKT (spec 20_memory.md R40, R45; 00_scope.md R12): sixteen byte locations, kept as a list
of cells in one canonical form. -/

namespace Sys2Proof.Machine

/-- The packet space's contents: cells at strictly rising addresses, none equal to `Memory.unlisted` (see `Memory.wf`). -/
abbrev Memory := List Host.Cell

/-- What an address without a cell holds. DESIGN CHOICE (log entry 6): it is how the byte 0x00 is WRITTEN DOWN in
the list, not what a location holds at reset; reset contents are a free draw (R31). -/
def Memory.unlisted : Byte := 0x00

/-- The canonical form: addresses strictly rising, all inside the space of 16 locations (R40), no cell equal to what an
unlisted address holds. Equal contents are then equal lists. -/
abbrev Memory.wf (m : Memory) : Prop :=
  m.Pairwise (fun c d => c.1 < d.1) ∧ ∀ c ∈ m, c.1 < Config.pktLen ∧ c.2 ≠ Memory.unlisted

/-- The space with no cell: every location holds `Memory.unlisted`. -/
def Memory.empty : Memory := []

/-- The byte at address `a`. -/
def Memory.readAt : Memory → Nat → Byte
  | [], _ => Memory.unlisted
  | c :: cs, a => if c.1 = a then c.2 else Memory.readAt cs a

/-- A cell put in its place in the order. -/
def Memory.insertCell : Memory → Nat → Byte → Memory
  | [], a, b => [(a, b)]
  | c :: cs, a, b =>
    if a < c.1 then (a, b) :: c :: cs
    else if a = c.1 then (a, b) :: cs
    else c :: Memory.insertCell cs a b

/-- The byte `b` stored at address `a`; storing what an unlisted address holds takes the cell out. -/
def Memory.writeAt (m : Memory) (a : Nat) (b : Byte) : Memory :=
  if b = Memory.unlisted then m.filter (fun c => c.1 ≠ a) else m.insertCell a b

/-- The `n` bytes from address `a` on, in address order. -/
def Memory.readBytes (m : Memory) : Nat → Nat → List Byte
  | _, 0 => []
  | a, n + 1 => m.readAt a :: Memory.readBytes m (a + 1) n

/-- Bytes stored from address `a` on, in address order. -/
def Memory.writeBytes : Memory → Nat → List Byte → Memory
  | m, _, [] => m
  | m, a, b :: bs => Memory.writeBytes (m.writeAt a b) (a + 1) bs

/-- The space that holds the given bytes from offset 0 on. -/
def Memory.ofBytes (bs : List Byte) : Memory := Memory.writeBytes Memory.empty 0 bs

/-- `MemRead(off, n)` (R12): n bytes as one value, the byte at `off` the most significant. Only for accesses inside the
space: outside it the operation is not defined, and no proof `_h` exists. -/
def memRead (m : Memory) (off n : Nat) (_h : off + n ≤ Config.pktLen := by decide) : BitVec (8 * n) :=
  BitVec.ofNat (8 * n) (beNat (m.readBytes off n))

/-- `MemWrite(off, n, v)` (R12): most significant byte at the lowest offset. Only for accesses inside the space. -/
def memWrite (m : Memory) (off n : Nat) (v : BitVec (8 * n)) (_h : off + n ≤ Config.pktLen := by decide) : Memory :=
  m.writeBytes off (beBytes n v)

end Sys2Proof.Machine
end

