-- ==== Sys2Proof/Machine/State.lean ====
section
/-! DEFINITION. The block's state (spec 10_state.md R20 to R23), the host's actions and the block's outputs, and reset. -/

namespace Sys2Proof.Machine

/-- The reasons a step can stop with a fault: NONE. No command raises anything once decoded (60_exceptions.md R130), an
illegal frame is answered and changes nothing (R131), the packet space has no access fault (20_memory.md R40) and the
block never halts (70_reset_and_hazards.md R162). -/
inductive Fault where
  deriving DecidableEq, Repr

/-- The reasons a step can give an instruction no meaning. -/
inductive Refusal where
  /-- Raised by an arm of `exec` whose command has no meaning yet, by its mnemonic; safe. No arm does. -/
  | notModelled (mnemonic : String)
  deriving DecidableEq, Repr

/-- One draw of the reset values RESET_CRC, RESET_CSUM and RESET_PKT, under no law (R8, R31, R150). -/
structure ResetDraw where
  crc : Word
  csum : Word
  pkt : Vector Byte 16
  deriving DecidableEq, Repr

/-- What the host can do to the block between commands (70_reset_and_hazards.md R163). -/
inductive HostAction where
  /-- Present a frame on the command port (30_encoding.md R60). -/
  | frame (f : Frame)
  /-- Drive the reset input; the draw is the free value of this reset (R150), not the host's choice. -/
  | reset (d : ResetDraw)
  /-- Read CRC through its read port (10_state.md R33). -/
  | readCrc
  /-- Read CSUM through its read port (R33). -/
  | readCsum
  /-- Read `PKT[off]`; an offset is a 4-bit number (20_memory.md R40, R41). -/
  | readPkt (off : BitVec 4)
  deriving DecidableEq, Repr

/-- The response to a frame (60_exceptions.md R134). -/
inductive Response where
  /-- `OK`: the command executed. -/
  | ok
  /-- `ERR(code)`: the frame spells no command; the codes are those of R132. -/
  | err (code : Nat)
  deriving DecidableEq, Repr

/-- What the block gives the host: one response per frame (R134), one value per read (R33). -/
inductive Output where
  /-- The response to a frame. -/
  | response (r : Response)
  /-- The value of CRC or CSUM read. -/
  | word (v : Word)
  /-- The byte of PKT read. -/
  | byte (v : Byte)
  deriving DecidableEq, Repr

/-- The architectural state, "exactly these three fields" (10_state.md R23). -/
structure Block where
  crc : Word
  csum : Word
  pkt : Memory
  deriving DecidableEq, Repr

/-- The machine: the three elements of R23, and two fields of the MODEL's own that carry the step's input and output
(R29), which the fixed form of a step leaves no other place for (log entries 1, 2). -/
structure State where
  /-- `CRC`: the running value of the checksum computation (R20). -/
  crc : Word
  /-- `CSUM`: the result of the last completed checksum computation (R21). -/
  csum : Word
  /-- `PKT`: the packet of the last ENCODE (R22, R40). -/
  pkt : Memory
  /-- The model's own: what the host does next, the next action first. -/
  pending : List HostAction
  /-- The model's own: what the block has answered, oldest first. -/
  outputs : List Output
  deriving DecidableEq, Repr

/-- The architectural part of a state (R23). -/
def State.block (s : State) : Block := ⟨s.crc, s.csum, s.pkt⟩

/-- The state after a power-on with the draw `d`: the shape R29 gives reset. Nothing is pending and nothing answered. -/
def State.powerOn (d : ResetDraw) : State :=
  { crc := d.crc, csum := d.csum, pkt := Memory.ofBytes d.pkt.toList, pending := [], outputs := [] }

/-- The machine right after reset: "Power-on is a reset" (R150). The three values are free (log entry 4). -/
def State.reset : State :=
  State.powerOn ⟨Config.resetCrc, Config.resetCsum, Config.resetPkt⟩

end Sys2Proof.Machine
end

