-- ==== Sys2Proof/Machine/Ops.lean ====
section
/-! DEFINITION. The named operations over the state: register writes, responses, the one exception, reset and the read
ports (spec 00_scope.md R12, 10_state.md R33, 60_exceptions.md R131 to R135, 70_reset_and_hazards.md R150). -/

namespace Sys2Proof.Machine

/-- `x[CRC] <- v` (R12, R20). -/
def State.setCrc (s : State) (v : Word) : State := { s with crc := v }

/-- `x[CSUM] <- v` (R12, R21). -/
def State.setCsum (s : State) (v : Word) : State := { s with csum := v }

/-- The packet space replaced by `m` (R12, R40). -/
def State.setPkt (s : State) (m : Memory) : State := { s with pkt := m }

/-- The actions still to come replaced by `l`. -/
def State.setPending (s : State) (l : List HostAction) : State := { s with pending := l }

/-- One more output of the block. -/
def State.emit (s : State) (o : Output) : State := { s with outputs := s.outputs ++ [o] }

/-- `respond OK`: the command ends (R12, R134). -/
def respondOk (s : State) : State := s.emit (.response .ok)

/-- `raise IllegalCommand(code)`: taking the block's one exception. No element of state changes, the response is
`ERR(code)`, and the block is ready for the next frame (R131). Nothing is saved, no mode changes and control goes
nowhere; so there is no return from it, and the block has no return command (R135). -/
def raiseIllegal (c : IllegalCause) (s : State) : State := s.emit (.response (.err c.code))

/-- The effect of the reset input: the three elements take the draw's values; no response (R150). -/
def applyReset (d : ResetDraw) (s : State) : State :=
  ((s.setCrc d.crc).setCsum d.csum).setPkt (Memory.ofBytes d.pkt.toList)

/-- `PKT[off]` as the host's read port gives it (R41). -/
def State.readPkt (s : State) (off : BitVec 4) : Byte := s.pkt.readAt off.toNat

/-- The host reads CRC: the current content, and nothing changes (R33). -/
def hostReadCrc (s : State) : State := s.emit (.word s.crc)

/-- The host reads CSUM (R33). -/
def hostReadCsum (s : State) : State := s.emit (.word s.csum)

/-- The host reads `PKT[off]` (R33, R41). -/
def hostReadPkt (off : BitVec 4) (s : State) : State := s.emit (.byte (s.readPkt off))

/-- The packet as the transport gets it: offset 0 first, offset 15 last (R41, R52). -/
def State.wire (s : State) : List Byte := s.pkt.readBytes 0 Config.pktLen

/-- The host actions that hand the packet over: reads of offsets 0, 1, ..., 15 in that order (R41). -/
def handOff : List HostAction := (List.range Config.pktLen).map fun i => .readPkt (BitVec.ofNat 4 i)

end Sys2Proof.Machine
end

