-- ==== Sys2Proof/Machine/ChecksumEngine.lean ====
section
/-! DEFINITION. The Checksum Engine: its functions, then the meanings of CRCINIT, CRCBYTE and CRCFIN (spec
40_checksum_engine.md). -/

namespace Sys2Proof.Machine

/-- The bit step (R80): a logical right shift by one, and the constant exclusive-ORed in when the bit lost was 1. -/
def crcBit (r : Word) : Word :=
  if r.getLsbD 0 then (r >>> 1) ^^^ Config.crcPoly else r >>> 1

/-- The byte exclusive-OR into the low 8 bits (R81). -/
def crcXorByte (r : Word) (b : Byte) : Word := r ^^^ b.setWidth 32

/-- `n` bit steps. -/
def crcBits : Nat → Word → Word
  | 0, r => r
  | n + 1, r => crcBits n (crcBit r)

/-- The byte step: one exclusive-OR, then exactly 8 bit steps (R82). -/
def crcByte (r : Word) (b : Byte) : Word := crcBits Config.bitsPerByte (crcXorByte r b)

/-- The byte step applied to each byte of a sequence, the first byte first (R83). -/
def crcUpdate : Word → List Byte → Word
  | r, [] => r
  | r, b :: bs => crcUpdate (crcByte r b) bs

/-- The final step: the complement within 32 bits (R84). -/
def crcFinal (r : Word) : Word := r ^^^ Config.crcXorOut

/-- The source's `compute` (R85). -/
def compute (data : List Byte) : Word := crcFinal (crcUpdate Config.crcInit data)

/-- CRCINIT (R89). -/
def execCrcinit (s : State) : Host.Outcome State Fault Refusal :=
  .next (respondOk (s.setCrc Config.crcInit))

/-- CRCBYTE imm8 (R90). -/
def execCrcbyte (imm8 : Byte) (s : State) : Host.Outcome State Fault Refusal :=
  .next (respondOk (s.setCrc (crcByte s.crc imm8)))

/-- CRCFIN (R91). -/
def execCrcfin (s : State) : Host.Outcome State Fault Refusal :=
  .next (respondOk (s.setCsum (crcFinal s.crc)))

end Sys2Proof.Machine
end

