-- ==== Sys2Proof/Machine/PacketEncoder.lean ====
section
/-! DEFINITION. The Packet Encoder: its steps, the function `encode` and the meaning of ENCODE (spec
41_packet_encoder.md). -/

namespace Sys2Proof.Machine

/-- Steps 1 to 3: the checksum input, sequence bytes first (R103 to R105). -/
def checksumInput (seq : Word) (payload : DWord) : List Byte := be32 seq ++ be64 payload

/-- Step 5: the corruption, when the flag asks for it (R107). -/
def corrupt (c : Bool) (k : Word) : Word := if c then k ^^^ Config.corruptXor else k

/-- The source's `encode(s, p, c)`: the sixteen bytes of the packet (R110). -/
def encodePacket (seq : Word) (payload : DWord) (c : Bool) : List Byte :=
  checksumInput seq payload ++ be32 (corrupt c (compute (checksumInput seq payload)))

/-- `MemWrite(0, 4, seq); MemWrite(4, 8, payload)`: the first two writes of R111. -/
def storeInputs (m : Memory) (seq : Word) (payload : DWord) : Memory :=
  memWrite (memWrite m Config.seqOff Config.seqLen seq) Config.payOff Config.payLen payload

/-- The engine run over `PKT[0..11]`, before the complement (R111, the line of `r`). -/
def runOverInputs (m : Memory) : Word := crcUpdate Config.crcInit (m.readBytes 0 Config.cinLen)

/-- `MemWrite(12, 4, k)`: the third write of R111. -/
def storeChecksum (m : Memory) (k : Word) : Memory := memWrite m Config.sumOff Config.sumLen k

/-- ENCODE seq, payload, c (R111), line by line. The three MemWrites store all sixteen bytes and "a column's write
replaces the whole element" (10_state.md R30), so they are made on an empty space: nothing of the old packet is read
(R116; log entry 10). -/
def execEncode (seq : Word) (payload : DWord) (c : Bool) (s : State) : Host.Outcome State Fault Refusal :=
  let m := storeInputs Memory.empty seq payload
  let r := runOverInputs m
  let k := corrupt c (crcFinal r)
  .next (respondOk (((s.setPkt (storeChecksum m k)).setCrc r).setCsum k))

end Sys2Proof.Machine
end

