-- ==== Sys2Proof/Machine/Dispatch.lean ====
section
/-! DEFINITION. One arm per command of spec/opcode_table.json. -/

namespace Sys2Proof.Machine

/-- The meaning of a decoded command, on the state its frame has been taken from. -/
def exec (i : Instr) (s : State) : Host.Outcome State Fault Refusal :=
  match i with
  | .crcinit => Sys2Proof.Machine.execCrcinit s
  | .crcbyte imm8 => Sys2Proof.Machine.execCrcbyte imm8 s
  | .crcfin => Sys2Proof.Machine.execCrcfin s
  | .encode seq payload c => Sys2Proof.Machine.execEncode seq payload c s

end Sys2Proof.Machine
end

