-- ==== Sys2Proof/Machine/CommandPort.lean ====
section
/-! DEFINITION. What one action of the host makes the block do (spec 30_encoding.md R60, R67; 60_exceptions.md R131,
R144; 70_reset_and_hazards.md R150). -/

namespace Sys2Proof.Machine

/-- A frame: the command it spells is executed, or IllegalCommand is raised (R67, R131). -/
def runFrame (f : Frame) (s : State) : Host.Outcome State Fault Refusal :=
  match decode f with
  | .ok i => exec i s
  | .error c => .next (raiseIllegal c s)

/-- One action of the host, on the state it has been taken from. -/
def takeAction (a : HostAction) (s : State) : Host.Outcome State Fault Refusal :=
  match a with
  | .frame f => runFrame f s
  | .reset d => .next (applyReset d s)
  | .readCrc => .next (hostReadCrc s)
  | .readCsum => .next (hostReadCsum s)
  | .readPkt off => .next (hostReadPkt off s)

/-- The block waits for a frame: waiting loses nothing and changes nothing (R144; log entry 3). -/
def idle (s : State) : Host.Outcome State Fault Refusal := .next s

end Sys2Proof.Machine
end

