-- ==== Sys2Proof/Machine/Step.lean ====
section
/-! DEFINITION. One step: the host's next action, taken in the order of presentation (spec 20_memory.md R54). -/

namespace Sys2Proof.Machine

/-- One step of the machine. -/
def step (s : State) : Host.Outcome State Fault Refusal :=
  match s.pending with
  | [] => idle s
  | a :: rest => takeAction a (s.setPending rest)

/-- The state `s` with the frame of a table word presented next (30_encoding.md R60). There is no stored program
(10_state.md R25), so presenting frames is the whole of running one (log entry 9). -/
def State.withFetchWord (s : State) (nbits w : Nat) : State :=
  match frameOfTableWord nbits w with
  | none => s
  | some f => s.setPending (.frame f :: s.pending)

end Sys2Proof.Machine
end

