-- ==== Sys2Proof/WellFormed.lean ====
section
/-! DEFINITION. What the assembler in front of the block accepts (spec 30_encoding.md R73). A term of `Instr` needs no
check: its operands have exactly the widths of the frame's fields (R65, R112; 93_implementation_defined.md U1). -/

namespace Sys2Proof

/-- The operand ranges of R73: `imm8` at most 0xFF, `seq` below 2^32, `payload` below 2^64, `c` 0 or 1; each byte of
COMPUTE is a CRCBYTE operand (R74). -/
def AsmCommand.wellFormed : AsmCommand → Bool
  | .crcinit => true
  | .crcbyte imm8 => imm8 ≤ 0xFF
  | .crcfin => true
  | .encode seq payload c => seq < 2 ^ 32 && payload < 2 ^ 64 && c ≤ 1
  | .compute data => data.all (· ≤ 0xFF)
  | .recheck => true

end Sys2Proof
end

