-- ==== Sys2Proof/Machine/Assembler.lean ====
section
/-! DEFINITION. The tool and the host procedures in front of the block: the assembler (spec 30_encoding.md R73) and the
pseudo-commands COMPUTE and RECHECK (R74, R75). Nothing of the block depends on this file. -/

namespace Sys2Proof.Machine

/-- COMPUTE: the expansion of R74, n + 2 commands. -/
def computeCommands (data : List Byte) : List Instr := .crcinit :: (data.map .crcbyte ++ [.crcfin])

/-- RECHECK: the expansion of R75, 14 commands; the host supplies each operand from its read of `PKT[i]` (log entry 14). -/
def recheckCommands (pkt : Memory) : List Instr := computeCommands (pkt.readBytes 0 Config.cinLen)

/-- The host actions that present commands in order, each as its frame (R71). -/
def present (l : List Instr) : List HostAction := l.map fun i => .frame (encode i)

/-- The commands a line stands for: an operand outside its range is rejected, not masked (R73). `pkt` is what the host
reads when the line is RECHECK. -/
def assemble (pkt : Memory) (a : AsmCommand) : Option (List Instr) :=
  if a.wellFormed then
    match a with
    | .crcinit => some [.crcinit]
    | .crcbyte imm8 => some [.crcbyte (BitVec.ofNat 8 imm8)]
    | .crcfin => some [.crcfin]
    | .encode seq payload c => some [.encode (BitVec.ofNat 32 seq) (BitVec.ofNat 64 payload) (c == 1)]
    | .compute data => some (computeCommands (data.map (BitVec.ofNat 8)))
    | .recheck => some (recheckCommands pkt)
  else none

/-- Blanks between the parts of a line (DESIGN CHOICE, log entry 13: R73 does not name them). -/
def isBlank (c : Char) : Bool := c == ' ' || c == '\t' || c == '\r'

/-- A text without the blanks at its two ends. -/
def trim (l : List Char) : List Char := ((l.dropWhile isBlank).reverse.dropWhile isBlank).reverse

/-- The line without its comment: "A comment runs from `;` to the end of the line." -/
def stripComment (l : List Char) : List Char := l.takeWhile (· != ';')

/-- The value of a digit in base 16; capitals and small letters alike (DESIGN CHOICE, log entry 13). -/
def digitValue (c : Char) : Option Nat :=
  let n := c.toNat
  if 48 ≤ n ∧ n ≤ 57 then some (n - 48)
  else if 65 ≤ n ∧ n ≤ 70 then some (n - 55)
  else if 97 ≤ n ∧ n ≤ 102 then some (n - 87)
  else none

/-- Digits read in a base, after those already read to `acc`. -/
def parseDigits (base : Nat) : Nat → List Char → Option Nat
  | acc, [] => some acc
  | acc, c :: cs =>
    match digitValue c with
    | none => none
    | some d => if d < base then parseDigits base (acc * base + d) cs else none

/-- "Numbers are hexadecimal with `0x` or decimal without." At least one digit. -/
def parseNumber : List Char → Option Nat
  | [] => none
  | '0' :: 'x' :: [] => none
  | '0' :: 'x' :: c :: cs => parseDigits 16 0 (c :: cs)
  | c :: cs => parseDigits 10 0 (c :: cs)

/-- The parts of a text between its commas. -/
def splitCommas : List Char → List (List Char)
  | [] => [[]]
  | c :: cs =>
    if c == ',' then [] :: splitCommas cs
    else
      match splitCommas cs with
      | [] => [[c]]
      | p :: ps => (c :: p) :: ps

/-- All the numbers of a list of texts, or none where one is no number. -/
def parseNumbers : List (List Char) → Option (List Nat)
  | [] => some []
  | t :: ts =>
    match parseNumber (trim t), parseNumbers ts with
    | some n, some ns => some (n :: ns)
    | _, _ => none

/-- The operands of a line: none, or numbers separated by commas. -/
def parseOperands (l : List Char) : Option (List Nat) :=
  if trim l = [] then some [] else parseNumbers (splitCommas l)

/-- A mnemonic with its operands (R73 to R75); the number of operands is the command's. -/
def lineOf (mnemonic : List Char) (operands : List Nat) : Option AsmCommand :=
  if mnemonic = ['C', 'R', 'C', 'I', 'N', 'I', 'T'] then
    match operands with
    | [] => some .crcinit
    | _ => none
  else if mnemonic = ['C', 'R', 'C', 'B', 'Y', 'T', 'E'] then
    match operands with
    | [imm8] => some (.crcbyte imm8)
    | _ => none
  else if mnemonic = ['C', 'R', 'C', 'F', 'I', 'N'] then
    match operands with
    | [] => some .crcfin
    | _ => none
  else if mnemonic = ['E', 'N', 'C', 'O', 'D', 'E'] then
    match operands with
    | [seq, payload, c] => some (.encode seq payload c)
    | _ => none
  else if mnemonic = ['C', 'O', 'M', 'P', 'U', 'T', 'E'] then some (.compute operands)
  else if mnemonic = ['R', 'E', 'C', 'H', 'E', 'C', 'K'] then
    match operands with
    | [] => some .recheck
    | _ => none
  else none

/-- One line of assembly text (R73): its command; `some none` for a line with no command on it. -/
def parseLine (l : List Char) : Option (Option AsmCommand) :=
  let t := trim (stripComment l)
  if t = [] then some none
  else
    match parseOperands (t.dropWhile fun c => !isBlank c) with
    | none => none
    | some operands => (lineOf (t.takeWhile fun c => !isBlank c) operands).map some

end Sys2Proof.Machine
end

