-- ==== Sys2Proof/Safety.lean ====
section
/-! DEFINITION. What counts as a good state and a safe run, in the terms the statements use. -/

namespace Sys2Proof.Machine

/-- An output the spec allows: a response ERR carries a code of R132 and no other. -/
def Output.legal : Output → Bool
  | .response (.err code) => code == 1 || code == 2 || code == 3
  | _ => true

/-- The invariant of the machine: the packet space is in its canonical form (so it has no address outside the 16 of
R40), and every response given is one of R134. -/
structure State.Inv (s : State) : Prop where
  pkt_wf : s.pkt.wf
  outputs_legal : ∀ o ∈ s.outputs, o.legal = true

/-- `s` runs `n` steps to `t` without a stop. -/
def runsTo (n : Nat) (s t : State) : Prop := Sys2Proof.core.run n s = .next t

/-- The responses among the outputs, oldest first. -/
def responses (l : List Output) : List Response :=
  l.filterMap fun o => match o with
    | .response r => some r
    | .word _ => none
    | .byte _ => none

/-- The frames among the host's actions, in order. -/
def frames (l : List HostAction) : List Frame :=
  l.filterMap fun a => match a with
    | .frame f => some f
    | .reset _ => none
    | .readCrc => none
    | .readCsum => none
    | .readPkt _ => none

/-- The response R134 gives a frame: it depends on the frame alone. -/
def responseTo (f : Frame) : Response :=
  match decode f with
  | .ok _ => .ok
  | .error c => .err c.code

/-- The bytes an action feeds a stream, and that it does not disturb the stream otherwise (R155): a CRCBYTE feeds its
byte; an illegal frame, a CRCFIN and a host read feed nothing; none for what disturbs a stream. -/
def streamBytes : HostAction → Option (List Byte)
  | .frame f =>
    match decode f with
    | .ok (.crcbyte imm8) => some [imm8]
    | .ok .crcfin => some []
    | .ok .crcinit => none
    | .ok (.encode _ _ _) => none
    | .error _ => some []
  | .reset _ => none
  | .readCrc => some []
  | .readCsum => some []
  | .readPkt _ => some []

/-- The bytes a list of actions feeds an open stream, or none if one of them disturbs it. -/
def feeds : List HostAction → Option (List Byte)
  | [] => some []
  | a :: l =>
    match streamBytes a, feeds l with
    | some b, some bs => some (b ++ bs)
    | _, _ => none

/-- The action writes PKT: an ENCODE, or a reset (10_state.md R30). -/
def writesPkt : HostAction → Bool
  | .frame f =>
    match decode f with
    | .ok (.encode _ _ _) => true
    | _ => false
  | .reset _ => true
  | _ => false

/-- The action writes CSUM: a CRCFIN, an ENCODE or a reset (R30). -/
def writesCsum : HostAction → Bool
  | .frame f =>
    match decode f with
    | .ok .crcfin => true
    | .ok (.encode _ _ _) => true
    | _ => false
  | .reset _ => true
  | _ => false

/-- The action writes CRC: a CRCINIT, a CRCBYTE, an ENCODE or a reset (R30). -/
def writesCrc : HostAction → Bool
  | .frame f =>
    match decode f with
    | .ok .crcinit => true
    | .ok (.crcbyte _) => true
    | .ok (.encode _ _ _) => true
    | _ => false
  | .reset _ => true
  | _ => false

end Sys2Proof.Machine
end

