-- ==== Sys2Proof/Certificates/Slice0/Obligations.lean ====
section
/-! DEFINITION. The statements for the provers, in the order of the spec's files. Each docstring names the rule it
formalises. Rules R80 to R95 are 40_checksum_engine.md's, R100 to R119 41_packet_encoder.md's, R60 to R75
30_encoding.md's, R40 to R55 20_memory.md's, R20 to R33 10_state.md's, R130 to R145 60_exceptions.md's and R150 to R163
70_reset_and_hazards.md's.
What the host does next and what the block has answered stand in the model's own fields `pending` and `outputs` (log
entries 1, 2), and a host read is an action of its own (log entry 17): every statement about a step or a run reads them
so. -/

open Sys2Proof Sys2Proof.Machine

/-! ### The Checksum Engine's functions -/

/-- R80: the bit step, its branch-free form, and bit 31 of its result. -/
def Obligations.BitStepShiftsRightAndXorsWhenLowBitWasOne : Prop :=
  ∀ r : Word,
    (r.getLsbD 0 = true → crcBit r = (r >>> 1) ^^^ 0xEDB88320#32) ∧
    (r.getLsbD 0 = false → crcBit r = r >>> 1) ∧
    (r >>> 1).getLsbD 31 = false ∧
    (crcBit r).getLsbD 31 = r.getLsbD 0 ∧
    crcBit r = (r >>> 1) ^^^ (0xEDB88320#32 &&& (if r.getLsbD 0 then 0xFFFFFFFF#32 else 0x00000000#32))

/-- R81: the byte meets the low 8 bits of the register, bit by bit; bits 31 to 8 are unchanged. -/
def Obligations.ByteXorTouchesTheLowByteOnly : Prop :=
  ∀ (r : Word) (b : Byte),
    crcXorByte r b = r ^^^ b.setWidth 32 ∧
    (crcXorByte r b).extractLsb' 8 24 = r.extractLsb' 8 24 ∧
    (crcXorByte r b).extractLsb' 0 8 = r.extractLsb' 0 8 ^^^ b

/-- R82: one exclusive-OR, then exactly eight bit steps. -/
def Obligations.ByteStepIsOneXorThenEightBitSteps : Prop :=
  ∀ (r : Word) (b : Byte),
    crcByte r b = crcBit (crcBit (crcBit (crcBit (crcBit (crcBit (crcBit (crcBit (crcXorByte r b))))))))

/-- R83: the byte step applied in input order, as a recursion and as a left fold, and the order matters. -/
def Obligations.UpdateTakesBytesInInputOrder : Prop :=
  (∀ r : Word, crcUpdate r [] = r) ∧
  (∀ (r : Word) (b : Byte) (bs : List Byte), crcUpdate r (b :: bs) = crcUpdate (crcByte r b) bs) ∧
  (∀ (r : Word) (data : List Byte), crcUpdate r data = data.foldl crcByte r) ∧
  crcUpdate 0xFFFFFFFF [0x31, 0x32] = 0xB0ACBB32 ∧
  crcUpdate 0xFFFFFFFF [0x32, 0x31] ≠ crcUpdate 0xFFFFFFFF [0x31, 0x32]

/-- R93: the splitting law. -/
def Obligations.UpdateSplitsOverConcatenation : Prop :=
  ∀ (r : Word) (a b : List Byte), crcUpdate r (a ++ b) = crcUpdate (crcUpdate r a) b

/-- R84: the complement within 32 bits. -/
def Obligations.FinalStepComplements : Prop :=
  (∀ r : Word, crcFinal r = ~~~r ∧ crcFinal r = r ^^^ 0xFFFFFFFF#32) ∧
  crcFinal 0xFFFFFFFF = 0x00000000 ∧ crcFinal 0x00000000 = 0xFFFFFFFF ∧ crcFinal 0x340BC6D9 = 0xCBF43926

/-- R85: `compute` is the three steps of the algorithm, and the source's check value with the register after each
byte. -/
def Obligations.ComputeGivesTheCheckValue : Prop :=
  (∀ data : List Byte, compute data = crcFinal (crcUpdate 0xFFFFFFFF data)) ∧
  compute [0x31, 0x32, 0x33, 0x34, 0x35, 0x36, 0x37, 0x38, 0x39] = 0xCBF43926 ∧
  ([1, 2, 3, 4, 5, 6, 7, 8, 9].map fun n =>
      crcUpdate 0xFFFFFFFF ([0x31, 0x32, 0x33, 0x34, 0x35, 0x36, 0x37, 0x38, 0x39].take n)) =
    [0x7C231048, 0xB0ACBB32, 0x77B79C2D, 0x641C1F5C, 0x340AC5E3, 0xF68D2C9E, 0xAFFC9660, 0x651F2550, 0x340BC6D9]

/-- R86: the checksum of no bytes. -/
def Obligations.ComputeOfNoBytesIsZero : Prop :=
  compute [] = 0x00000000

/-- R94: (a) the byte enters through the first exclusive-OR only; (b) zero stays zero under zero bytes; (c) four 0xFF
bytes clear the register and zero bytes after them keep it clear; (d) the final step is its own inverse. -/
def Obligations.ConsequencesForTestDesign : Prop :=
  (∀ (r : Word) (b : Byte), crcByte r b = crcByte (r ^^^ b.setWidth 32) 0x00) ∧
  crcBit 0 = 0 ∧ crcByte 0 0x00 = 0 ∧
  crcUpdate 0xFFFFFFFF [0xFF] = 0x00FFFFFF ∧ crcUpdate 0xFFFFFFFF [0xFF, 0xFF] = 0x0000FFFF ∧
  crcUpdate 0xFFFFFFFF [0xFF, 0xFF, 0xFF] = 0x000000FF ∧
  (∀ n : Nat, crcUpdate 0xFFFFFFFF ([0xFF, 0xFF, 0xFF, 0xFF] ++ List.replicate n 0x00) = 0x00000000) ∧
  compute [0xFF, 0xFF, 0xFF, 0xFF] = 0xFFFFFFFF ∧
  (∀ r : Word, crcFinal (crcFinal r) = r)

/-- R95, over the definitions of R80 to R85: the engine may be realised by a 256-entry table. For EVERY table that agrees with the byte step from the zero
register, the byte-wise loop over the table computes the same checksum as the bit-serial definition, on every input. -/
def Obligations.TableDrivenEngineComputesTheSame : Prop :=
  ∀ table : Byte → Word, (∀ i : Byte, table i = crcByte 0 i) →
    ∀ data : List Byte,
      ~~~(data.foldl (fun (r : Word) (b : Byte) => (r >>> 8) ^^^ table (r.setWidth 8 ^^^ b)) 0xFFFFFFFF#32) = compute data

/-! ### The Packet Encoder's functions -/

/-- R100, R101: the bytes of a value, most significant first. -/
def Obligations.SerializersPutTheMostSignificantByteFirst : Prop :=
  (∀ v : Word, be32 v = [v.extractLsb' 24 8, v.extractLsb' 16 8, v.extractLsb' 8 8, v.extractLsb' 0 8]) ∧
  (∀ v : DWord, be64 v =
    [v.extractLsb' 56 8, v.extractLsb' 48 8, v.extractLsb' 40 8, v.extractLsb' 32 8,
     v.extractLsb' 24 8, v.extractLsb' 16 8, v.extractLsb' 8 8, v.extractLsb' 0 8]) ∧
  (∀ (v : Word) (i : Nat), i < 4 → (be32 v).getD i 0 = ((v >>> (8 * (3 - i))) &&& 0xFF).setWidth 8) ∧
  (∀ (v : DWord) (i : Nat), i < 8 → (be64 v).getD i 0 = ((v >>> (8 * (7 - i))) &&& 0xFF).setWidth 8)

/-- R102: the inverses, and what MemWrite and MemRead of a field store and return. -/
def Obligations.SerializersLoseNothing : Prop :=
  (∀ a b c d : Byte, unbe32 a b c d = a ++ b ++ c ++ d ∧ be32 (unbe32 a b c d) = [a, b, c, d]) ∧
  (∀ v : Word, ∃ a b c d : Byte, be32 v = [a, b, c, d] ∧ unbe32 a b c d = v) ∧
  (∀ a b c d e f g h : Byte, unbe64 a b c d e f g h = a ++ b ++ c ++ d ++ e ++ f ++ g ++ h ∧
    be64 (unbe64 a b c d e f g h) = [a, b, c, d, e, f, g, h]) ∧
  (∀ v : DWord, ∃ a b c d e f g h : Byte, be64 v = [a, b, c, d, e, f, g, h] ∧ unbe64 a b c d e f g h = v) ∧
  (∀ (m : Memory) (off : Nat) (h : off + 4 ≤ 16) (v : Word), (memWrite m off 4 v h).readBytes off 4 = be32 v) ∧
  (∀ (m : Memory) (off : Nat) (h : off + 8 ≤ 16) (v : DWord), (memWrite m off 8 v h).readBytes off 8 = be64 v) ∧
  (∀ (m : Memory) (off : Nat) (h : off + 4 ≤ 16),
    memRead m off 4 h = unbe32 (m.readAt off) (m.readAt (off + 1)) (m.readAt (off + 2)) (m.readAt (off + 3)))

/-- R110: the packet in one expression, sixteen bytes, and the worked example with both values of the flag. -/
def Obligations.PacketIsInputThenChecksum : Prop :=
  (∀ (s : Word) (p : DWord) (c : Bool),
    encodePacket s p c =
      be32 s ++ be64 p ++ be32 (compute (be32 s ++ be64 p) ^^^ (if c then 0xDEADBEEF#32 else 0x00000000#32)) ∧
    (encodePacket s p c).length = 16) ∧
  encodePacket 0x00000001 0x1234567890ABCDEF false =
    [0x00, 0x00, 0x00, 0x01, 0x12, 0x34, 0x56, 0x78, 0x90, 0xAB, 0xCD, 0xEF, 0x3B, 0xE5, 0x20, 0x10] ∧
  encodePacket 0x00000001 0x1234567890ABCDEF true =
    [0x00, 0x00, 0x00, 0x01, 0x12, 0x34, 0x56, 0x78, 0x90, 0xAB, 0xCD, 0xEF, 0xE5, 0x48, 0x9E, 0xFF]

/-- R113: for every packet made without corruption, the last four bytes are `compute` of the first twelve. -/
def Obligations.UncorruptedPacketVerifies : Prop :=
  ∀ (s : Word) (p : DWord), ∃ k0 k1 k2 k3 : Byte,
    (encodePacket s p false).drop 12 = [k0, k1, k2, k3] ∧
    unbe32 k0 k1 k2 k3 = compute ((encodePacket s p false).take 12)

/-- R114: corruption changes the checksum field only, by 0xDEADBEEF byte by byte, and the corrupted field NEVER equals
`compute` of the first twelve bytes. -/
def Obligations.CorruptedPacketNeverVerifies : Prop :=
  ∀ (s : Word) (p : DWord), ∃ k0 k1 k2 k3 : Byte,
    (encodePacket s p false).drop 12 = [k0, k1, k2, k3] ∧
    (encodePacket s p true).drop 12 = [k0 ^^^ 0xDE, k1 ^^^ 0xAD, k2 ^^^ 0xBE, k3 ^^^ 0xEF] ∧
    (encodePacket s p true).take 12 = (encodePacket s p false).take 12 ∧
    unbe32 (k0 ^^^ 0xDE) (k1 ^^^ 0xAD) (k2 ^^^ 0xBE) (k3 ^^^ 0xEF) = unbe32 k0 k1 k2 k3 ^^^ 0xDEADBEEF#32 ∧
    unbe32 (k0 ^^^ 0xDE) (k1 ^^^ 0xAD) (k2 ^^^ 0xBE) (k3 ^^^ 0xEF) ^^^ 0xDEADBEEF#32 = unbe32 k0 k1 k2 k3 ∧
    unbe32 (k0 ^^^ 0xDE) (k1 ^^^ 0xAD) (k2 ^^^ 0xBE) (k3 ^^^ 0xEF) ≠ compute ((encodePacket s p true).take 12)

/-! ### Frames, the decoder and the encoder -/

/-- R61: byte j of a frame of L bytes is `bits[8(L-1-j)+7 : 8(L-1-j)]`. -/
def Obligations.FrameBitsPutByteZeroFirst : Prop :=
  ∀ (f : Frame) (j : Nat), j < f.length →
    (f.bytes.getD j 0).toNat = f.bits / 2 ^ (8 * (f.length - 1 - j)) % 2 ^ 8

/-- R65: every decoded operand is its field of the frame's bits, as it stands. -/
def Obligations.OperandsAreTheirFieldsOfTheFrame : Prop :=
  ∀ f : Frame,
    (∀ imm8 : Byte, decode f = .ok (.crcbyte imm8) → imm8.toNat = f.bits % 2 ^ 8) ∧
    (∀ (seq : Word) (payload : DWord) (c : Bool), decode f = .ok (.encode seq payload c) →
      c = f.bits.testBit 96 ∧ seq.toNat = f.bits / 2 ^ 64 % 2 ^ 32 ∧ payload.toNat = f.bits % 2 ^ 64)

/-- R66: a frame matches a row of the match and mask table exactly when it decodes to that row's command; no two rows
match one frame; a frame that matches no row is illegal. -/
def Obligations.DecoderAgreesWithTheOpcodeTable : Prop :=
  ∀ f : Frame,
    (∀ r ∈ opcodeTable, (rowMatches r f = true ↔ ∃ i : Instr, decode f = .ok i ∧ i.mnemonic = r.mnemonic)) ∧
    (∀ r ∈ opcodeTable, ∀ r' ∈ opcodeTable, rowMatches r f = true → rowMatches r' f = true → r = r') ∧
    ((∀ r ∈ opcodeTable, rowMatches r f = false) → ∃ c : IllegalCause, decode f = .error c)

/-- R132, R133: exactly when each cause is reported, and its code. -/
def Obligations.IllegalFramesReportTheFirstCause : Prop :=
  (∀ f : Frame,
    (decode f = .error .badOpcode ↔ f.op ≠ 0x01 ∧ f.op ≠ 0x02 ∧ f.op ≠ 0x03 ∧ f.op ≠ 0x10) ∧
    (decode f = .error .badLength ↔
      ((f.op = 0x01 ∨ f.op = 0x03) ∧ f.length ≠ 1) ∨ (f.op = 0x02 ∧ f.length ≠ 2) ∨ (f.op = 0x10 ∧ f.length ≠ 14)) ∧
    (decode f = .error .badReserved ↔
      f.op = 0x10 ∧ f.length = 14 ∧ (f.args.getD 0 0).extractLsb' 1 7 ≠ 0)) ∧
  IllegalCause.badOpcode.code = 1 ∧ IllegalCause.badLength.code = 2 ∧ IllegalCause.badReserved.code = 3

/-- R71: the frame of each command. -/
def Obligations.EncodedFramesOfTheFourCommands : Prop :=
  (encode .crcinit).bytes = [0x01] ∧
  (∀ b : Byte, (encode (.crcbyte b)).bytes = [0x02, b]) ∧
  (encode .crcfin).bytes = [0x03] ∧
  (∀ (seq : Word) (payload : DWord) (c : Bool),
    (encode (.encode seq payload c)).bytes =
      [0x10, if c then 0x01 else 0x00] ++ be32 seq ++ be64 payload) ∧
  (encode (.encode 0x00000001 0x1234567890ABCDEF false)).bytes =
    [0x10, 0x00, 0x00, 0x00, 0x00, 0x01, 0x12, 0x34, 0x56, 0x78, 0x90, 0xAB, 0xCD, 0xEF]

/-- Decode and encode agree on every command, with every operand at every value. -/
def Obligations.DecodeOfEncodeIsTheCommand : Prop :=
  ∀ i : Instr, decode (encode i) = .ok i

/-- "Each command has exactly one encoding" (R71): a legal frame IS the encoding of the command it decodes to. -/
def Obligations.EachCommandHasOneEncoding : Prop :=
  ∀ (f : Frame) (i : Instr), decode f = .ok i → f = encode i

/-- Words written out from the spec's encodings (95_test_vectors.md section 2.8, opcode_table.json) decode to their
commands, and to their causes (R66 to R68). How a table word is split into the bytes of a frame is the model's reading of
R61 (log entry 8, DEDUCED). -/
def Obligations.WrittenOutFramesDecode : Prop :=
  decodeTableWord 8 0x01 = some .crcinit ∧
  decodeTableWord 16 0x0231 = some (.crcbyte 0x31) ∧
  decodeTableWord 8 0x03 = some .crcfin ∧
  decodeTableWord 112 0x1001000000011234567890ABCDEF = some (.encode 0x00000001 0x1234567890ABCDEF true) ∧
  decodeTableWord 112 0x1001FFFFFFFF0000000000000000 = some (.encode 0xFFFFFFFF 0 true) ∧
  decode ⟨0xFF, [0x31]⟩ = .error .badOpcode ∧
  decode ⟨0x07, [0x00, 0x00]⟩ = .error .badOpcode ∧
  decode ⟨0x02, [0x31, 0x32]⟩ = .error .badLength ∧
  decode ⟨0x10, [0xFE, 0, 0, 0, 0, 0, 0, 0, 0, 0, 0, 0, 0, 0]⟩ = .error .badLength ∧
  decode ⟨0x10, [0x80, 0, 0, 0, 0, 0, 0, 0, 0, 0, 0, 0, 0]⟩ = .error .badReserved

/-! ### The four commands: results (each is its completion statement) and frames -/

/-- R89. -/
def Obligations.CrcinitLoadsAllOnes : Prop :=
  (∀ s : State,
    exec .crcinit s = .next { s with crc := 0xFFFFFFFF, outputs := s.outputs ++ [.response .ok] }) ∧
  decode ⟨0x01, []⟩ = .ok .crcinit ∧
  (∀ args : List Byte, args ≠ [] → decode ⟨0x01, args⟩ = .error .badLength) ∧
  (∀ s : State, ∃ t u : State, exec .crcinit s = .next t ∧ exec .crcinit t = .next u ∧ u.block = t.block) ∧
  (∀ s : State, ∃ t u : State, exec .crcinit s = .next t ∧ exec .crcfin t = .next u ∧ u.csum = compute [])

/-- R90. -/
def Obligations.CrcbyteAdvancesTheRegister : Prop :=
  (∀ (imm8 : Byte) (s : State),
    exec (.crcbyte imm8) s = .next { s with crc := crcByte s.crc imm8, outputs := s.outputs ++ [.response .ok] }) ∧
  (∀ imm8 : Byte, decode ⟨0x02, [imm8]⟩ = .ok (.crcbyte imm8)) ∧
  (∀ args : List Byte, args.length ≠ 1 → decode ⟨0x02, args⟩ = .error .badLength) ∧
  crcByte 0xFFFFFFFF 0x00 = 0x2DFD1072 ∧ crcByte 0x00000000 0x00 = 0x00000000 ∧
  crcByte 0xFFFFFFFF 0x31 = 0x7C231048

/-- R91. -/
def Obligations.CrcfinWritesTheComplement : Prop :=
  (∀ s : State,
    exec .crcfin s = .next { s with csum := ~~~s.crc, outputs := s.outputs ++ [.response .ok] }) ∧
  decode ⟨0x03, []⟩ = .ok .crcfin ∧
  (∀ args : List Byte, args ≠ [] → decode ⟨0x03, args⟩ = .error .badLength) ∧
  (∀ s : State, ∃ t u : State, exec .crcfin s = .next t ∧ exec .crcfin t = .next u ∧ u.block = t.block) ∧
  (∀ s : State, ∃ t u : State, exec .crcinit s = .next t ∧ exec .crcfin t = .next u ∧ u.csum = 0x00000000) ∧
  (∀ (seq : Word) (payload : DWord) (c : Bool) (s : State), ∃ t u : State,
    exec (.encode seq payload c) s = .next t ∧ exec .crcfin t = .next u ∧
    u.csum = compute (be32 seq ++ be64 payload))

/-- R111: from every state and for all operands, what ENCODE writes; what it does not touch; the frames it has. -/
def Obligations.EncodeBuildsThePacket : Prop :=
  (∀ (seq : Word) (payload : DWord) (c : Bool) (s : State), ∃ t : State,
    exec (.encode seq payload c) s = .next t ∧
    t.wire = encodePacket seq payload c ∧
    t.crc = crcUpdate 0xFFFFFFFF (be32 seq ++ be64 payload) ∧
    t.csum = (if c then crcFinal t.crc ^^^ 0xDEADBEEF#32 else crcFinal t.crc) ∧
    memRead t.pkt 0 4 = seq ∧ memRead t.pkt 4 8 = payload ∧ memRead t.pkt 12 4 = t.csum ∧
    t.pending = s.pending ∧
    t.outputs = s.outputs ++ [.response .ok]) ∧
  (∀ (seq : Word) (payload : DWord) (c : Bool),
    decode ⟨0x10, (if c then 0x01 else 0x00) :: (be32 seq ++ be64 payload)⟩ = .ok (.encode seq payload c)) ∧
  (∀ args : List Byte, args.length ≠ 13 → decode ⟨0x10, args⟩ = .error .badLength) ∧
  (∀ (flags : Byte) (args : List Byte), args.length = 12 → flags &&& 0xFE ≠ 0 →
    decode ⟨0x10, flags :: args⟩ = .error .badReserved)

/-- R111, its three MemWrites line by line: on a packet space in the model's canonical form (log entry 6), what ENCODE leaves in PKT is what the
three writes leave when they are made over the OLD contents. (The model makes them on an empty space: log entry 10.) -/
def Obligations.EncodeEqualsTheThreeWritesOverTheOldPacket : Prop :=
  ∀ (seq : Word) (payload : DWord) (c : Bool) (s : State), s.pkt.wf → ∃ t : State,
    exec (.encode seq payload c) s = .next t ∧
    t.pkt = memWrite (memWrite (memWrite s.pkt 0 4 seq) 4 8 payload) 12 4 t.csum ∧
    t.crc = crcUpdate 0xFFFFFFFF ((memWrite (memWrite s.pkt 0 4 seq) 4 8 payload).readBytes 0 12)

/-- R52: the wire format byte by byte, as the host's read port gives it after ENCODE. -/
def Obligations.WireFormatByteByByte : Prop :=
  ∀ (s : Word) (p : DWord) (c : Bool) (st : State), ∃ t : State,
    exec (.encode s p c) st = .next t ∧
    t.readPkt 0 = s.extractLsb' 24 8 ∧ t.readPkt 1 = s.extractLsb' 16 8 ∧
    t.readPkt 2 = s.extractLsb' 8 8 ∧ t.readPkt 3 = s.extractLsb' 0 8 ∧
    t.readPkt 4 = p.extractLsb' 56 8 ∧ t.readPkt 5 = p.extractLsb' 48 8 ∧
    t.readPkt 6 = p.extractLsb' 40 8 ∧ t.readPkt 7 = p.extractLsb' 32 8 ∧
    t.readPkt 8 = p.extractLsb' 24 8 ∧ t.readPkt 9 = p.extractLsb' 16 8 ∧
    t.readPkt 10 = p.extractLsb' 8 8 ∧ t.readPkt 11 = p.extractLsb' 0 8 ∧
    t.readPkt 12 = t.csum.extractLsb' 24 8 ∧ t.readPkt 13 = t.csum.extractLsb' 16 8 ∧
    t.readPkt 14 = t.csum.extractLsb' 8 8 ∧ t.readPkt 15 = t.csum.extractLsb' 0 8

/-- R115 (field placement) and R117 (boundary payloads and sequences), on the machine. -/
def Obligations.FieldPlacementAndBoundaryValues : Prop :=
  (∀ s : State, ∃ t : State, exec (.encode 0x00000001 0x1234567890ABCDEF false) s = .next t ∧
    t.wire = [0x00, 0x00, 0x00, 0x01, 0x12, 0x34, 0x56, 0x78, 0x90, 0xAB, 0xCD, 0xEF, 0x3B, 0xE5, 0x20, 0x10]) ∧
  (∀ (seq : Word) (c : Bool) (s : State), ∃ t : State, exec (.encode seq 0x0000000000000000 c) s = .next t ∧
    t.pkt.readBytes 4 8 = List.replicate 8 0x00) ∧
  (∀ (seq : Word) (c : Bool) (s : State), ∃ t : State, exec (.encode seq 0xFFFFFFFFFFFFFFFF c) s = .next t ∧
    t.pkt.readBytes 4 8 = List.replicate 8 0xFF) ∧
  (∀ (payload : DWord) (c : Bool) (s : State), ∃ t : State, exec (.encode 0x00000000 payload c) s = .next t ∧
    t.pkt.readBytes 0 4 = List.replicate 4 0x00) ∧
  (∀ (payload : DWord) (c : Bool) (s : State), ∃ t : State, exec (.encode 0xFFFFFFFF payload c) s = .next t ∧
    t.pkt.readBytes 0 4 = List.replicate 4 0xFF)

/-- The frames of the register-only commands (columns CRCINIT, CRCBYTE and CRCFIN of R30): what each leaves unchanged.
No form of them stores to memory, so every address reads as before. -/
def Obligations.StreamCommandsLeaveTheRestUnchanged : Prop :=
  (∀ s t : State, exec .crcinit s = .next t →
    t.csum = s.csum ∧ (∀ a : Nat, t.pkt.readAt a = s.pkt.readAt a) ∧ t.pending = s.pending ∧
    t.outputs = s.outputs ++ [.response .ok]) ∧
  (∀ (imm8 : Byte) (s t : State), exec (.crcbyte imm8) s = .next t →
    t.csum = s.csum ∧ (∀ a : Nat, t.pkt.readAt a = s.pkt.readAt a) ∧ t.pending = s.pending ∧
    t.outputs = s.outputs ++ [.response .ok]) ∧
  (∀ s t : State, exec .crcfin s = .next t →
    t.crc = s.crc ∧ (∀ a : Nat, t.pkt.readAt a = s.pkt.readAt a) ∧ t.pending = s.pending ∧
    t.outputs = s.outputs ++ [.response .ok])

/-- The frame of ENCODE: it stores to the three fields at their fixed offsets (R52) and to no other address; CRC and
CSUM are its destinations (R111). The premise is the model's canonical form (log entry 6), an invariant (`StepKeepsTheInvariant`). -/
def Obligations.EncodeStoresToTheThreeFieldsOnly : Prop :=
  ∀ (seq : Word) (payload : DWord) (c : Bool) (s t : State), s.pkt.wf → exec (.encode seq payload c) s = .next t →
    (∀ a : Nat,
      ¬(Config.seqOff ≤ a ∧ a < Config.seqOff + Config.seqLen) →
      ¬(Config.payOff ≤ a ∧ a < Config.payOff + Config.payLen) →
      ¬(Config.sumOff ≤ a ∧ a < Config.sumOff + Config.sumLen) →
      t.pkt.readAt a = s.pkt.readAt a) ∧
    t.pending = s.pending ∧ t.outputs = s.outputs ++ [.response .ok]

/-- R116: the state after ENCODE is a function of the frame alone: from any two states it leaves the same CRC, CSUM and
PKT, and so a second ENCODE with the same operands leaves what the first left (R51). -/
def Obligations.EncodeDependsOnItsFrameAlone : Prop :=
  ∀ (seq : Word) (payload : DWord) (c : Bool) (s s' : State), ∃ t t' u : State,
    exec (.encode seq payload c) s = .next t ∧ exec (.encode seq payload c) s' = .next t' ∧ t.block = t'.block ∧
    exec (.encode seq payload c) t = .next u ∧ u.block = t.block

/-- R32 (a), (b), (c): how CRC, CSUM and PKT are tied right after a CRCFIN and right after an ENCODE. -/
def Obligations.RelationsRightAfterCrcfinAndEncode : Prop :=
  (∀ s : State, ∃ t : State, exec .crcfin s = .next t ∧ t.csum = ~~~t.crc) ∧
  (∀ (seq : Word) (payload : DWord) (s : State), ∃ t : State, exec (.encode seq payload false) s = .next t ∧
    t.csum = ~~~t.crc ∧ memRead t.pkt 12 4 = t.csum ∧ t.crc = crcUpdate 0xFFFFFFFF (t.pkt.readBytes 0 12)) ∧
  (∀ (seq : Word) (payload : DWord) (s : State), ∃ t : State, exec (.encode seq payload true) s = .next t ∧
    t.csum = ~~~t.crc ^^^ 0xDEADBEEF#32 ∧ memRead t.pkt 12 4 = t.csum ∧
    t.crc = crcUpdate 0xFFFFFFFF (t.pkt.readBytes 0 12))

/-! ### Memory -/

/-- R12: MemRead after MemWrite returns the value; every address outside the stored bytes reads as before. -/
def Obligations.MemReadAfterMemWriteReturnsTheValue : Prop :=
  ∀ (m : Memory) (off n : Nat) (h : off + n ≤ 16) (v : BitVec (8 * n)),
    memRead (memWrite m off n v h) off n h = v ∧
    ∀ a : Nat, ¬(off ≤ a ∧ a < off + n) → (memWrite m off n v h).readAt a = m.readAt a

/-- R45: the byte stored at `off + i` is `v[8(n-1-i)+7 : 8(n-1-i)]`. -/
def Obligations.FieldsAreStoredBigEndian : Prop :=
  ∀ (m : Memory) (off n : Nat) (h : off + n ≤ 16) (v : BitVec (8 * n)) (i : Nat), i < n →
    (memWrite m off n v h).readAt (off + i) = v.extractLsb' (8 * (n - 1 - i)) 8

/-- Equal contents are equal data: the canonical form of the packet space (log entry 6). -/
def Obligations.CanonicalPacketSpacesWithEqualBytesAreEqual : Prop :=
  ∀ m m' : Memory, m.wf → m'.wf → (∀ off : BitVec 4, m.readAt off.toNat = m'.readAt off.toNat) → m = m'

/-! ### One step -/

/-- A step runs the decoded command: on the state from which the frame has been taken (R67). -/
def Obligations.StepExecutesTheDecodedCommand : Prop :=
  ∀ (s : State) (f : Frame) (rest : List HostAction) (i : Instr),
    s.pending = .frame f :: rest → decode f = .ok i → step s = exec i { s with pending := rest }

/-- R131: taking IllegalCommand. No element of state changes, the frame is consumed, the response is ERR(code). -/
def Obligations.IllegalFrameChangesNothingAndAnswersItsCode : Prop :=
  ∀ (s : State) (f : Frame) (rest : List HostAction) (c : IllegalCause),
    s.pending = .frame f :: rest → decode f = .error c →
      step s = .next { s with pending := rest, outputs := s.outputs ++ [.response (.err c.code)] }

/-- R150: the effect of reset, for EVERY draw of the three values (data of the action: log entry 5); it gives no
response. -/
def Obligations.ResetLoadsTheDraw : Prop :=
  ∀ (s : State) (d : ResetDraw) (rest : List HostAction), s.pending = .reset d :: rest → ∃ t : State,
    step s = .next t ∧ t.crc = d.crc ∧ t.csum = d.csum ∧ t.wire = d.pkt.toList ∧
    t.pending = rest ∧ t.outputs = s.outputs

/-- The state after power-on holds the three free values and nothing else. That a power-on has nothing pending and
nothing answered is the model's choice (log entries 2 and 9); the three values are opaque (log entry 4). -/
def Obligations.PowerOnHoldsTheFreeValues : Prop :=
  State.reset.crc = Config.resetCrc ∧ State.reset.csum = Config.resetCsum ∧
  State.reset.wire = Config.resetPkt.toList ∧ State.reset.pending = [] ∧ State.reset.outputs = []

/-- R33: a host read returns the current content and changes nothing. -/
def Obligations.HostReadsReturnTheContentAndChangeNothing : Prop :=
  ∀ (s : State) (rest : List HostAction),
    (s.pending = .readCrc :: rest →
      step s = .next { s with pending := rest, outputs := s.outputs ++ [.word s.crc] }) ∧
    (s.pending = .readCsum :: rest →
      step s = .next { s with pending := rest, outputs := s.outputs ++ [.word s.csum] }) ∧
    (∀ off : BitVec 4, s.pending = .readPkt off :: rest →
      step s = .next { s with pending := rest, outputs := s.outputs ++ [.byte (s.pkt.readAt off.toNat)] })

/-- R144: waiting is not a state of its own and loses nothing. (That a step of a waiting machine is a step to the same
state is the model's reading: log entry 3.) -/
def Obligations.WaitingChangesNothing : Prop :=
  ∀ s : State, s.pending = [] → step s = .next s

/-- A word presented through the host's placing function is decoded and run by the very next step (log entries 8, 9). -/
def Obligations.PlacedWordRunsNext : Prop :=
  ∀ (s : State) (nbits w : Nat) (i : Instr),
    decodeTableWord nbits w = some i → step (s.withFetchWord nbits w) = exec i s

/-- R29: the step has the shape `State -> Frame -> State × Response`: ONE function of CRC, CSUM, PKT and the frame gives
the new CRC, CSUM, PKT and exactly one response, in every state; nothing else is read and nothing else is kept. -/
def Obligations.StepIsAFunctionOfBlockAndFrame : Prop :=
  ∃ g : Block → Frame → Block × Response,
    ∀ (s : State) (f : Frame) (rest : List HostAction), s.pending = .frame f :: rest →
      step s = .next
        { crc := (g s.block f).1.crc, csum := (g s.block f).1.csum, pkt := (g s.block f).1.pkt,
          pending := rest, outputs := s.outputs ++ [.response (g s.block f).2] }

/-- R30: only the commands of its row change an element: PKT changes in an ENCODE or a reset only, CSUM in a CRCFIN, an
ENCODE or a reset only, CRC in a CRCINIT, a CRCBYTE, an ENCODE or a reset only. -/
def Obligations.OnlyTheAccessTablesWritersChangeAnElement : Prop :=
  ∀ s t : State, step s = .next t →
    (t.pkt ≠ s.pkt → ∃ a rest, s.pending = a :: rest ∧ writesPkt a = true) ∧
    (t.csum ≠ s.csum → ∃ a rest, s.pending = a :: rest ∧ writesCsum a = true) ∧
    (t.crc ≠ s.crc → ∃ a rest, s.pending = a :: rest ∧ writesCrc a = true)

/-! ### Invariants and runs -/

/-- Every step keeps the invariant: the packet space stays in canonical form (no address outside the sixteen of R40), and
every response given is OK or ERR with a code of R132. The canonical form is the model's choice (log entry 6). -/
def Obligations.StepKeepsTheInvariant : Prop :=
  ∀ s t : State, s.Inv → step s = .next t → t.Inv

/-- The model's invariant holds after power-on, for every draw, and so at `State.reset`. The canonical form of the packet
space is the model's choice (log entry 6), and so is that a power-on has answered nothing (log entry 2). -/
def Obligations.PowerOnMeetsTheInvariant : Prop :=
  (∀ d : ResetDraw, (State.powerOn d).Inv) ∧ State.reset.Inv

/-- The block never stops: every state runs any number of steps (R134, R162). That a waiting machine steps to the same
state is the model's reading (log entry 3). -/
def Obligations.EveryRunCompletes : Prop :=
  ∀ (n : Nat) (s : State), ∃ t : State, runsTo n s t

/-- R134: every frame gets exactly one response, in order, and which one depends on the frame alone; reads and resets
get none. -/
def Obligations.EveryFrameGetsOneResponseInOrder : Prop :=
  (∀ s : State, ∃ t : State, runsTo s.pending.length s t ∧ t.pending = [] ∧
    responses t.outputs = responses s.outputs ++ (frames s.pending).map responseTo) ∧
  (∀ f : Frame, (∃ i : Instr, decode f = .ok i ∧ responseTo f = .ok) ∨
    (∃ c : IllegalCause, decode f = .error c ∧ responseTo f = .err c.code ∧ (c.code = 1 ∨ c.code = 2 ∨ c.code = 3)))

/-- R92, the stream theorem: from ANY state, CRCINIT, a CRCBYTE for each byte of a sequence of any length, and CRCFIN,
presented in a row, end with the checksum of the sequence. -/
def Obligations.StreamComputesTheChecksum : Prop :=
  ∀ (s : State) (data : List Byte) (rest : List HostAction),
    s.pending = present (computeCommands data) ++ rest → ∃ t : State,
      runsTo (data.length + 2) s t ∧
      t.csum = compute data ∧ t.crc = crcUpdate 0xFFFFFFFF data ∧ t.pkt = s.pkt ∧ t.pending = rest ∧
      t.outputs = s.outputs ++ List.replicate (data.length + 2) (.response .ok)

/-- R155, what does not disturb a stream: in a run of any length over CRCBYTEs, CRCFINs, illegal frames and host reads,
in any order, the register is the running value of exactly the CRCBYTEs' bytes, and PKT is as it was. -/
def Obligations.ReadsIllegalFramesAndCrcfinDoNotDisturbAStream : Prop :=
  ∀ (s : State) (data : List Byte), feeds s.pending = some data → ∃ t : State,
    runsTo s.pending.length s t ∧ t.crc = crcUpdate s.crc data ∧ t.pkt = s.pkt

/-- R155, its example of a stream that an ENCODE disturbs. -/
def Obligations.EncodeInsideAStreamDisturbsIt : Prop :=
  ∀ (s : State) (rest : List HostAction),
    s.pending = present [.crcinit, .crcbyte 0x31, .encode 1 0x1234567890ABCDEF false, .crcbyte 0x32, .crcfin] ++ rest →
      ∃ t : State, runsTo 5 s t ∧ t.csum = 0x07594B49 ∧
        0x07594B49 = crcFinal (crcByte 0xC41ADFEF 0x32) ∧ t.csum ≠ compute [0x31, 0x32]

/-- R32 (d), R22: over a run of any length whose actions hold no ENCODE and no reset, PKT stays. Steps of
a waiting machine are counted too (log entry 3). -/
def Obligations.PacketStaysUntilTheNextEncodeOrReset : Prop :=
  ∀ (n : Nat) (s t : State), (∀ a ∈ s.pending, writesPkt a = false) → runsTo n s t → t.pkt = s.pkt

/-- R75: RECHECK leaves `compute(PKT[0..11])` in CSUM; on a packet just made it equals the checksum field when the flag
was 0 and differs from it by exactly 0xDEADBEEF when it was 1. (The host's twelve reads are taken at once: log entry 14.) -/
def Obligations.RecheckTellsCorruptedFromSound : Prop :=
  (∀ pkt : Memory, recheckCommands pkt =
    [.crcinit] ++ (List.range 12).map (fun i => .crcbyte (pkt.readAt i)) ++ [.crcfin]) ∧
  (∀ (s : State) (rest : List HostAction), s.pending = present (recheckCommands s.pkt) ++ rest → ∃ t : State,
    runsTo 14 s t ∧ t.csum = compute (s.pkt.readBytes 0 12) ∧ t.pkt = s.pkt) ∧
  (∀ (seq : Word) (payload : DWord) (c : Bool) (s t : State) (rest : List HostAction),
    exec (.encode seq payload c) s = .next t → t.pending = present (recheckCommands t.pkt) ++ rest → ∃ u : State,
      runsTo 14 t u ∧ u.pkt = t.pkt ∧
      memRead u.pkt 12 4 = (if c then u.csum ^^^ 0xDEADBEEF#32 else u.csum))

/-- R41: handing the packet over, offsets 0 to 15 in that order, gives the sixteen bytes in wire order and changes
nothing; after an ENCODE they are the packet of R110. -/
def Obligations.HandOffReadsThePacketInWireOrder : Prop :=
  (∀ (s : State) (rest : List HostAction), s.pending = handOff ++ rest → ∃ t : State,
    runsTo 16 s t ∧ t.block = s.block ∧ t.pending = rest ∧ t.outputs = s.outputs ++ s.wire.map .byte) ∧
  (∀ (seq : Word) (payload : DWord) (c : Bool) (s t : State) (rest : List HostAction),
    exec (.encode seq payload c) s = .next t → t.pending = handOff ++ rest → ∃ u : State,
      runsTo 16 t u ∧ u.outputs = t.outputs ++ (encodePacket seq payload c).map .byte)

/-! ### The assembler in front of the block -/

/-- R73: an operand in its range is carried as it stands; a line with one outside its range is rejected, not masked. -/
def Obligations.AssemblerRejectsWhatItCannotCarry : Prop :=
  (∀ (pkt : Memory) (n : Nat),
    (n ≤ 0xFF → ∃ b : Byte, b.toNat = n ∧ assemble pkt (.crcbyte n) = some [.crcbyte b]) ∧
    (¬ n ≤ 0xFF → assemble pkt (.crcbyte n) = none)) ∧
  (∀ (pkt : Memory) (seq payload c : Nat),
    (seq < 2 ^ 32 → payload < 2 ^ 64 → c ≤ 1 → ∃ (s : Word) (p : DWord), s.toNat = seq ∧ p.toNat = payload ∧
      assemble pkt (.encode seq payload c) = some [.encode s p (c == 1)]) ∧
    (¬(seq < 2 ^ 32 ∧ payload < 2 ^ 64 ∧ c ≤ 1) → assemble pkt (.encode seq payload c) = none))

/-- R74: COMPUTE b0, ..., b(n-1) expands to CRCINIT, n times CRCBYTE, CRCFIN: n + 2 commands. -/
def Obligations.ComputeExpandsToItsStream : Prop :=
  ∀ (pkt : Memory) (data : List Byte),
    assemble pkt (.compute (data.map BitVec.toNat)) = some ([.crcinit] ++ data.map .crcbyte ++ [.crcfin]) ∧
    (computeCommands data).length = data.length + 2
end

