-- ==== Sys2Proof/Laws/Memory.lean ====
section
/-! SUPPORT. The laws of the packet space: a read after a write, and that every operation keeps the canonical form. -/

namespace Sys2Proof.Machine

@[simp] theorem readAt_empty (a : Nat) : Memory.readAt Memory.empty a = Memory.unlisted := rfl

theorem readAt_cons (c : Host.Cell) (cs : Memory) (x : Nat) :
    Memory.readAt (c :: cs) x = if c.1 = x then c.2 else Memory.readAt cs x := rfl

theorem readAt_insertCell (m : Memory) (a : Nat) (b : Byte) (x : Nat) :
    (m.insertCell a b).readAt x = if x = a then b else m.readAt x := by
  induction m with
  | nil => simp only [Memory.insertCell, readAt_cons, eq_comm (a := a)]
  | cons c cs ih =>
    simp only [Memory.insertCell]
    split
    · simp only [readAt_cons, eq_comm (a := a)]
    · split
      · rename_i h
        by_cases hx : x = a
        · simp [readAt_cons, hx]
        · have h1 : a ≠ x := Ne.symm hx
          have h2 : c.1 ≠ x := by omega
          simp only [readAt_cons, if_neg hx, if_neg h1, if_neg h2]
      · rename_i h
        by_cases hc : c.1 = x
        · have hx : x ≠ a := by omega
          simp only [readAt_cons, if_pos hc, if_neg hx]
        · simp only [readAt_cons, if_neg hc, ih]

theorem readAt_filter (m : Memory) (a x : Nat) :
    Memory.readAt (m.filter (fun c => c.1 ≠ a)) x = if x = a then Memory.unlisted else m.readAt x := by
  induction m with
  | nil => simp [Memory.readAt]
  | cons c cs ih =>
    by_cases h : c.1 = a <;> by_cases h' : x = a <;> by_cases h'' : c.1 = x <;>
      simp_all [Memory.readAt]

/-- A byte stored is read back, and every other address reads as before. -/
theorem readAt_writeAt (m : Memory) (a : Nat) (b : Byte) (x : Nat) :
    (m.writeAt a b).readAt x = if x = a then b else m.readAt x := by
  unfold Memory.writeAt
  split
  · rename_i h; rw [readAt_filter]; simp [h]
  · exact readAt_insertCell m a b x

/-- Bytes stored in a row: address `x` reads the byte stored there, or as before. -/
theorem readAt_writeBytes (bs : List Byte) (m : Memory) (a x : Nat) :
    (m.writeBytes a bs).readAt x =
      if a ≤ x ∧ x < a + bs.length then bs.getD (x - a) Memory.unlisted else m.readAt x := by
  induction bs generalizing m a with
  | nil =>
    rw [if_neg (by simp only [List.length_nil]; omega)]
    rfl
  | cons b bs ih =>
    simp only [Memory.writeBytes, ih, readAt_writeAt, List.length_cons]
    by_cases h : x = a
    · subst h; simp
    · by_cases h2 : a + 1 ≤ x ∧ x < a + 1 + bs.length
      · have e : x - a = (x - (a + 1)) + 1 := by omega
        rw [if_pos h2, if_pos (by omega), e, List.getD_cons_succ]
      · rw [if_neg h2, if_neg h, if_neg (by omega)]

@[simp] theorem length_readBytes (m : Memory) (a n : Nat) : (m.readBytes a n).length = n := by
  induction n generalizing a with
  | zero => rfl
  | succ n ih => simp [Memory.readBytes, ih]

/-- The bytes read in a row are the bytes at the addresses in a row. -/
theorem readBytes_eq_map (m : Memory) (a n : Nat) :
    m.readBytes a n = (List.range n).map fun i => m.readAt (a + i) := by
  induction n generalizing a with
  | zero => rfl
  | succ n ih =>
    simp only [Memory.readBytes, ih, List.range_succ_eq_map, List.map_cons, List.map_map]
    simp [Function.comp_def, Nat.add_comm, Nat.add_left_comm]

/-- A whole row read back after it was stored. -/
theorem readBytes_writeBytes (m : Memory) (a : Nat) (bs : List Byte) :
    (m.writeBytes a bs).readBytes a bs.length = bs := by
  rw [readBytes_eq_map]
  apply List.ext_getElem
  · simp
  · intro i h1 h2
    have h3 : i < bs.length := h2
    simp [readAt_writeBytes, h3]

theorem insertCell_wf (m : Memory) (a : Nat) (b : Byte) (hm : m.wf) (ha : a < Config.pktLen)
    (hb : b ≠ Memory.unlisted) : (m.insertCell a b).wf := by
  have mem : ∀ (m : Memory) (c : Host.Cell), c ∈ m.insertCell a b → c = (a, b) ∨ c ∈ m := by
    intro m c
    induction m with
    | nil => simp [Memory.insertCell]
    | cons d ds ih =>
      simp only [Memory.insertCell]
      split
      · simp
      · split
        · simp; rintro (h | h) <;> simp [h]
        · simp; rintro (h | h)
          · simp [h]
          · rcases ih h with h | h <;> simp [h]
  refine ⟨?_, fun c hc => (mem m c hc).elim (fun h => h ▸ ⟨ha, hb⟩) (hm.2 c)⟩
  have hp := hm.1
  clear hm
  induction m with
  | nil => simp [Memory.insertCell]
  | cons d ds ih =>
    rw [List.pairwise_cons] at hp
    simp only [Memory.insertCell]
    split
    · rename_i h
      refine List.pairwise_cons.2 ⟨?_, List.pairwise_cons.2 hp⟩
      rintro c (_ | ⟨_, hc⟩)
      · exact h
      · exact lt_trans h (hp.1 c hc)
    · split
      · rename_i h
        refine List.pairwise_cons.2 ⟨fun c hc => ?_, hp.2⟩
        simpa [h] using hp.1 c hc
      · refine List.pairwise_cons.2 ⟨fun c hc => ?_, ih hp.2⟩
        rcases mem ds c hc with h | h
        · subst h; simp only; omega
        · exact hp.1 c h

/-- Every store inside the space keeps the canonical form. -/
theorem writeAt_wf (m : Memory) (a : Nat) (b : Byte) (hm : m.wf) (ha : a < Config.pktLen) : (m.writeAt a b).wf := by
  unfold Memory.writeAt
  split
  · exact ⟨hm.1.filter _, fun c hc => hm.2 c (List.mem_filter.1 hc).1⟩
  · rename_i h; exact insertCell_wf m a b hm ha h

theorem writeBytes_wf (bs : List Byte) (m : Memory) (a : Nat) (hm : m.wf) (ha : a + bs.length ≤ Config.pktLen) :
    (m.writeBytes a bs).wf := by
  induction bs generalizing m a with
  | nil => exact hm
  | cons b bs ih =>
    simp only [List.length_cons] at ha
    exact ih _ _ (writeAt_wf m a b hm (by omega)) (by omega)

theorem empty_wf : Memory.empty.wf := by
  constructor <;> simp [Memory.empty]

@[simp] theorem length_beBytes (n : Nat) (v : BitVec (8 * n)) : (beBytes n v).length = n := by simp [beBytes]

/-- MemWrite keeps the canonical form. -/
theorem memWrite_wf (m : Memory) (off n : Nat) (v : BitVec (8 * n)) (h : off + n ≤ Config.pktLen) (hm : m.wf) :
    (memWrite m off n v h).wf :=
  writeBytes_wf _ _ _ hm (by simpa using h)

/-- Contents given byte by byte (a reset draw) are in canonical form. -/
theorem ofBytes_wf (bs : List Byte) (h : bs.length ≤ Config.pktLen) : (Memory.ofBytes bs).wf :=
  writeBytes_wf _ _ _ empty_wf (by simpa using h)

/-- In canonical form no cell lies outside the space. -/
theorem readAt_of_wf (m : Memory) (hm : m.wf) (a : Nat) (ha : Config.pktLen ≤ a) : m.readAt a = Memory.unlisted := by
  have h := hm.2
  clear hm
  induction m with
  | nil => rfl
  | cons c cs ih =>
    have hc := (h c (by simp)).1
    simp only [Memory.readAt]
    rw [if_neg (by omega)]
    exact ih fun d hd => h d (by simp [hd])

theorem readAt_lt_head (m : Memory) (c : Host.Cell) (h : (c :: m).Pairwise (fun c d : Host.Cell => c.1 < d.1)) (a : Nat)
    (ha : a ≤ c.1) : m.readAt a = Memory.unlisted := by
  rw [List.pairwise_cons] at h
  obtain ⟨h1, -⟩ := h
  induction m with
  | nil => rfl
  | cons d ds ih =>
    have := h1 d (by simp)
    simp only [Memory.readAt]
    rw [if_neg (by omega)]
    exact ih fun e he => h1 e (by simp [he])

/-- Equal contents are equal lists: the canonical form is canonical. -/
theorem ext_of_wf (m m' : Memory) (hm : m.wf) (hm' : m'.wf) (h : ∀ a, m.readAt a = m'.readAt a) : m = m' := by
  induction m generalizing m' with
  | nil =>
    cases m' with
    | nil => rfl
    | cons d ds =>
      have := h d.1
      simp only [Memory.readAt, if_true] at this
      exact absurd this.symm (hm'.2 d (by simp)).2
  | cons c cs ih =>
    cases m' with
    | nil =>
      have := h c.1
      simp only [Memory.readAt, if_true] at this
      exact absurd this (hm.2 c (by simp)).2
    | cons d ds =>
      have hcd : c.1 = d.1 := by
        rcases lt_trichotomy c.1 d.1 with hlt | heq | hgt
        · have e := h c.1
          rw [Memory.readAt, if_pos rfl, Memory.readAt, if_neg (by omega), readAt_lt_head ds d hm'.1 _ (by omega)] at e
          exact absurd e (hm.2 c (by simp)).2
        · exact heq
        · have e := h d.1
          rw [Memory.readAt, if_neg (by omega), readAt_lt_head cs c hm.1 _ (by omega), Memory.readAt, if_pos rfl] at e
          exact absurd e.symm (hm'.2 d (by simp)).2
      have hv : c.2 = d.2 := by
        have e := h c.1
        rwa [Memory.readAt, if_pos rfl, Memory.readAt, if_pos hcd.symm] at e
      have htail : ∀ a, Memory.readAt cs a = Memory.readAt ds a := by
        intro a
        by_cases ha : a = c.1
        · rw [ha, readAt_lt_head cs c hm.1 _ (by omega), readAt_lt_head ds d hm'.1 _ (by omega)]
        · have e := h a
          rwa [Memory.readAt, if_neg (Ne.symm ha), Memory.readAt, if_neg (by omega)] at e
      have hcs : Memory.wf cs := ⟨(List.pairwise_cons.1 hm.1).2, fun e he => hm.2 e (by simp [he])⟩
      have hds : Memory.wf ds := ⟨(List.pairwise_cons.1 hm'.1).2, fun e he => hm'.2 e (by simp [he])⟩
      rw [Prod.ext hcd hv, ih ds hcs hds htail]

end Sys2Proof.Machine
end

