-- ==== Sys2Proof/Laws/ByteOrder.lean ====
section
/-! SUPPORT. The laws of the byte orderer (41_packet_encoder.md R100 to R102). -/

namespace Sys2Proof

open Sys2Proof.Machine (length_beBytes)

@[simp] theorem length_be32 (v : Word) : (be32 v).length = 4 := rfl

@[simp] theorem length_be64 (v : DWord) : (be64 v).length = 8 := rfl

theorem beNat_cons (b : Byte) (bs : List Byte) : beNat (b :: bs) = b.toNat * 256 ^ bs.length + beNat bs := rfl

theorem beNat_lt (bs : List Byte) : beNat bs < 256 ^ bs.length := by
  induction bs with
  | nil => simp [beNat]
  | cons b bs ih =>
    have hb : b.toNat + 1 ≤ 256 := b.isLt
    have := Nat.mul_le_mul_right (256 ^ bs.length) hb
    rw [beNat_cons, List.length_cons, pow_succ]
    nlinarith

theorem beNat_append (as bs : List Byte) : beNat (as ++ bs) = beNat as * 256 ^ bs.length + beNat bs := by
  induction as with
  | nil => simp [beNat]
  | cons a as ih => simp only [List.cons_append, beNat_cons, ih, List.length_append, pow_add]; ring

/-- The bytes of a number, most significant first, by division: `beBytes` written with numbers. -/
theorem beNat_beBytes (n : Nat) (v : BitVec (8 * n)) : beNat (beBytes n v) = v.toNat := by
  have h : ∀ k ≤ n, beNat ((List.range k).map fun i => v.extractLsb' (8 * (n - 1 - i)) 8) =
      v.toNat / 256 ^ (n - k) := by
    intro k
    induction k with
    | zero =>
      intro _
      have hv : v.toNat < 256 ^ n := by
        have := v.isLt
        rwa [pow_mul] at this
      simp [beNat, Nat.div_eq_of_lt hv]
    | succ k ih =>
      intro hk
      have e : (256 : Nat) ^ (n - k) = 256 ^ (n - (k + 1)) * 256 := by
        rw [← pow_succ]; congr 1; omega
      have e2 : (2 : Nat) ^ (8 * (n - 1 - k)) = 256 ^ (n - (k + 1)) := by
        rw [pow_mul]; congr 1; omega
      rw [List.range_succ, List.map_append, beNat_append, ih (by omega), e, ← Nat.div_div_eq_div_mul]
      simp only [List.map_cons, List.map_nil, beNat, List.length_cons, List.length_nil,
        BitVec.extractLsb'_toNat, Nat.shiftRight_eq_div_pow, e2, pow_zero]
      omega
  have := h n le_rfl
  simpa [beBytes] using this

theorem beNat_be32 (v : Word) : beNat (be32 v) = v.toNat := beNat_beBytes 4 v

theorem beNat_be64 (v : DWord) : beNat (be64 v) = v.toNat := beNat_beBytes 8 v

theorem toNat_unbe32 (a b c d : Byte) : (unbe32 a b c d).toNat = beNat [a, b, c, d] := by
  have lt : beNat [a, b, c, d] < 256 ^ 4 := beNat_lt [a, b, c, d]
  rw [unbe32, BitVec.toNat_ofNat, Nat.mod_eq_of_lt (lt_of_lt_of_eq lt (by norm_num))]

theorem toNat_unbe64 (a b c d e f g h : Byte) :
    (unbe64 a b c d e f g h).toNat = beNat [a, b, c, d, e, f, g, h] := by
  have lt : beNat [a, b, c, d, e, f, g, h] < 256 ^ 8 := beNat_lt [a, b, c, d, e, f, g, h]
  rw [unbe64, BitVec.toNat_ofNat, Nat.mod_eq_of_lt (lt_of_lt_of_eq lt (by norm_num))]

end Sys2Proof
end

