-- ==== Sys2Proof/Laws/State.lean ====
section
/-! SUPPORT. One lemma per field per update of the state, so that no later proof unfolds a record update. -/

namespace Sys2Proof.Machine

variable (s : State)

@[simp] theorem setCrc_crc (v : Word) : (s.setCrc v).crc = v := rfl
@[simp] theorem setCrc_csum (v : Word) : (s.setCrc v).csum = s.csum := rfl
@[simp] theorem setCrc_pkt (v : Word) : (s.setCrc v).pkt = s.pkt := rfl
@[simp] theorem setCrc_pending (v : Word) : (s.setCrc v).pending = s.pending := rfl
@[simp] theorem setCrc_outputs (v : Word) : (s.setCrc v).outputs = s.outputs := rfl

@[simp] theorem setCsum_crc (v : Word) : (s.setCsum v).crc = s.crc := rfl
@[simp] theorem setCsum_csum (v : Word) : (s.setCsum v).csum = v := rfl
@[simp] theorem setCsum_pkt (v : Word) : (s.setCsum v).pkt = s.pkt := rfl
@[simp] theorem setCsum_pending (v : Word) : (s.setCsum v).pending = s.pending := rfl
@[simp] theorem setCsum_outputs (v : Word) : (s.setCsum v).outputs = s.outputs := rfl

@[simp] theorem setPkt_crc (m : Memory) : (s.setPkt m).crc = s.crc := rfl
@[simp] theorem setPkt_csum (m : Memory) : (s.setPkt m).csum = s.csum := rfl
@[simp] theorem setPkt_pkt (m : Memory) : (s.setPkt m).pkt = m := rfl
@[simp] theorem setPkt_pending (m : Memory) : (s.setPkt m).pending = s.pending := rfl
@[simp] theorem setPkt_outputs (m : Memory) : (s.setPkt m).outputs = s.outputs := rfl

@[simp] theorem setPending_crc (l : List HostAction) : (s.setPending l).crc = s.crc := rfl
@[simp] theorem setPending_csum (l : List HostAction) : (s.setPending l).csum = s.csum := rfl
@[simp] theorem setPending_pkt (l : List HostAction) : (s.setPending l).pkt = s.pkt := rfl
@[simp] theorem setPending_pending (l : List HostAction) : (s.setPending l).pending = l := rfl
@[simp] theorem setPending_outputs (l : List HostAction) : (s.setPending l).outputs = s.outputs := rfl

@[simp] theorem emit_crc (o : Output) : (s.emit o).crc = s.crc := rfl
@[simp] theorem emit_csum (o : Output) : (s.emit o).csum = s.csum := rfl
@[simp] theorem emit_pkt (o : Output) : (s.emit o).pkt = s.pkt := rfl
@[simp] theorem emit_pending (o : Output) : (s.emit o).pending = s.pending := rfl
@[simp] theorem emit_outputs (o : Output) : (s.emit o).outputs = s.outputs ++ [o] := rfl

@[simp] theorem block_crc : s.block.crc = s.crc := rfl
@[simp] theorem block_csum : s.block.csum = s.csum := rfl
@[simp] theorem block_pkt : s.block.pkt = s.pkt := rfl
@[simp] theorem setPending_block (l : List HostAction) : (s.setPending l).block = s.block := rfl
@[simp] theorem emit_block (o : Output) : (s.emit o).block = s.block := rfl

end Sys2Proof.Machine
end

