-- ==== Sys2Proof/Laws/Packet.lean ====
section
/-! SUPPORT. What ENCODE's operations on the packet space do, said once. -/

namespace Sys2Proof.Machine

@[simp] theorem length_checksumInput (seq : Word) (payload : DWord) : (checksumInput seq payload).length = 12 := rfl

theorem writeBytes_append (m : Memory) (a : Nat) (as bs : List Byte) :
    m.writeBytes a (as ++ bs) = (m.writeBytes a as).writeBytes (a + as.length) bs := by
  induction as generalizing m a with
  | nil => rfl
  | cons x xs ih =>
    simp only [List.cons_append, Memory.writeBytes, ih, List.length_cons]
    congr 1
    omega

/-- The first two writes of ENCODE store the checksum input from offset 0 on. -/
theorem storeInputs_eq (m : Memory) (seq : Word) (payload : DWord) :
    storeInputs m seq payload = m.writeBytes 0 (checksumInput seq payload) :=
  (writeBytes_append m 0 (be32 seq) (be64 payload)).symm

/-- All three writes store the sixteen bytes from offset 0 on. -/
theorem storeChecksum_storeInputs (m : Memory) (seq : Word) (payload : DWord) (k : Word) :
    storeChecksum (storeInputs m seq payload) k = m.writeBytes 0 (checksumInput seq payload ++ be32 k) := by
  rw [storeInputs_eq, writeBytes_append]
  rfl

/-- The engine's run reads back the checksum input, whatever the space held. -/
theorem runOverInputs_storeInputs (m : Memory) (seq : Word) (payload : DWord) :
    runOverInputs (storeInputs m seq payload) = crcUpdate Config.crcInit (checksumInput seq payload) := by
  rw [storeInputs_eq]
  exact congrArg (crcUpdate Config.crcInit) (readBytes_writeBytes m 0 (checksumInput seq payload))

/-- ENCODE as one next state: its three writes, its running value and its final checksum. -/
theorem execEncode_eq (seq : Word) (payload : DWord) (c : Bool) (s : State) :
    execEncode seq payload c s = .next (respondOk
      (((s.setPkt (Memory.ofBytes (encodePacket seq payload c))).setCrc
        (crcUpdate Config.crcInit (checksumInput seq payload))).setCsum
        (corrupt c (compute (checksumInput seq payload))))) := by
  simp only [execEncode, runOverInputs_storeInputs, storeChecksum_storeInputs]
  rfl

@[simp] theorem length_encodePacket (seq : Word) (payload : DWord) (c : Bool) :
    (encodePacket seq payload c).length = 16 := rfl

/-- The bytes of a space given byte by byte are those bytes. -/
theorem readBytes_ofBytes (bs : List Byte) (a n : Nat) (h : a + n ≤ bs.length) :
    (Memory.ofBytes bs).readBytes a n = (bs.drop a).take n := by
  rw [readBytes_eq_map]
  apply List.ext_getElem
  · simp; omega
  · intro i h1 h2
    have h3 : a + i < bs.length := by simp at h1; omega
    simp [Memory.ofBytes, readAt_writeBytes, h3]

theorem readAt_ofBytes (bs : List Byte) (a : Nat) : (Memory.ofBytes bs).readAt a = bs.getD a 0 := by
  rw [Memory.ofBytes, readAt_writeBytes]
  split
  · rfl
  · rename_i h
    rw [List.getD_eq_default _ _ (by omega)]
    rfl

end Sys2Proof.Machine
end

