-- ==== Sys2Proof/Laws/PerInstr.lean ====
section
/-! SUPPORT. Statements made per command, one lemma per constructor of `Instr`. -/

/-- The length of a command's frame is its format's: `LEN_N` 1, `LEN_B` 2, `LEN_E` 14 (00_scope.md R8, 30_encoding.md
R62 to R64, R66). -/
def Sys2Proof.Laws.EncodedLength.Statement (i : Sys2Proof.Instr) : Prop :=
  (Sys2Proof.encode i).length =
    match i with
    | .crcinit => 1
    | .crcbyte _ => 2
    | .crcfin => 1
    | .encode _ _ _ => 14

theorem Sys2Proof.Laws.EncodedLength.crcinit : Sys2Proof.Laws.EncodedLength.Statement .crcinit := rfl

theorem Sys2Proof.Laws.EncodedLength.crcbyte (imm8 : Sys2Proof.Byte) :
    Sys2Proof.Laws.EncodedLength.Statement (.crcbyte imm8) := rfl

theorem Sys2Proof.Laws.EncodedLength.crcfin : Sys2Proof.Laws.EncodedLength.Statement .crcfin := rfl

theorem Sys2Proof.Laws.EncodedLength.encode (seq : Sys2Proof.Word) (payload : Sys2Proof.DWord) (c : Bool) :
    Sys2Proof.Laws.EncodedLength.Statement (.encode seq payload c) := rfl
end

