-- ==== Sys2Proof/Laws/Steps.lean ====
section
/-! SUPPORT. What one step and a whole run can do, said once: every action of the host has exactly one next state. -/

namespace Sys2Proof.Machine

/-- The one next state of a command. -/
def commandEffect (i : Instr) (s : State) : State :=
  match i with
  | .crcinit => respondOk (s.setCrc Config.crcInit)
  | .crcbyte imm8 => respondOk (s.setCrc (crcByte s.crc imm8))
  | .crcfin => respondOk (s.setCsum (crcFinal s.crc))
  | .encode seq payload c => respondOk
      (((s.setPkt (Memory.ofBytes (encodePacket seq payload c))).setCrc
        (crcUpdate Config.crcInit (checksumInput seq payload))).setCsum
        (corrupt c (compute (checksumInput seq payload))))

theorem exec_eq (i : Instr) (s : State) : exec i s = .next (commandEffect i s) := by
  cases i with
  | encode seq payload c => exact execEncode_eq seq payload c s
  | _ => rfl

/-- The one next state of an action of the host. -/
def actionEffect (a : HostAction) (s : State) : State :=
  match a with
  | .frame f =>
    match decode f with
    | .ok i => commandEffect i s
    | .error c => raiseIllegal c s
  | .reset d => applyReset d s
  | .readCrc => hostReadCrc s
  | .readCsum => hostReadCsum s
  | .readPkt off => hostReadPkt off s

theorem takeAction_eq (a : HostAction) (s : State) : takeAction a s = .next (actionEffect a s) := by
  cases a with
  | frame f =>
    simp only [takeAction, runFrame, actionEffect]
    cases decode f with
    | ok i => exact exec_eq i s
    | error c => rfl
  | _ => rfl

theorem step_nil {s : State} (h : s.pending = []) : step s = .next s := by simp only [step, h]; rfl

theorem step_cons {s : State} {a : HostAction} {rest : List HostAction} (h : s.pending = a :: rest) :
    step s = .next (actionEffect a (s.setPending rest)) := by
  simp only [step, h, takeAction_eq]

/-- Everything a step can do: it waits, or it takes the host's next action. -/
theorem step_cases {s t : State} (h : step s = .next t) :
    (s.pending = [] ∧ t = s) ∨
    (∃ a rest, s.pending = a :: rest ∧ t = actionEffect a (s.setPending rest)) := by
  cases hp : s.pending with
  | nil => rw [step_nil hp] at h; exact .inl ⟨rfl, by injection h with h; exact h.symm⟩
  | cons a rest => rw [step_cons hp] at h; exact .inr ⟨a, rest, rfl, by injection h with h; exact h.symm⟩

@[simp] theorem actionEffect_pending (a : HostAction) (s : State) : (actionEffect a s).pending = s.pending := by
  cases a with
  | frame f =>
    simp only [actionEffect]
    cases decode f with
    | ok i => cases i <;> rfl
    | error c => rfl
  | _ => rfl

theorem runsTo_zero {s t : State} : runsTo 0 s t ↔ t = s := by
  constructor
  · intro h; injection h with h; exact h.symm
  · rintro rfl; rfl

theorem runsTo_succ {n : Nat} {s t : State} : runsTo (n + 1) s t ↔ ∃ u, step s = .next u ∧ runsTo n u t := by
  have same : Sys2Proof.core.step s = step s := rfl
  simp only [runsTo, Host.Core.run, same]
  cases step s with
  | next u => simp
  | fault r => cases r
  | refused r => simp

/-- The responses an action adds: one to a frame, which the frame alone decides, and none to a reset or a read. -/
theorem actionEffect_responses (a : HostAction) (s : State) :
    responses (actionEffect a s).outputs = responses s.outputs ++ (frames [a]).map responseTo := by
  cases a with
  | frame f =>
    simp only [actionEffect, frames, responseTo, List.filterMap_cons, List.filterMap_nil, List.map_cons, List.map_nil]
    cases decode f with
    | ok i => cases i <;> simp [commandEffect, respondOk, responses]
    | error c => simp [raiseIllegal, responses]
  | reset d => simp [actionEffect, applyReset, frames]
  | readCrc => simp [actionEffect, hostReadCrc, responses, frames]
  | readCsum => simp [actionEffect, hostReadCsum, responses, frames]
  | readPkt off => simp [actionEffect, hostReadPkt, responses, frames]

/-- An action that does not disturb a stream feeds the register exactly its bytes and keeps PKT. -/
theorem actionEffect_stream {a : HostAction} {bs : List Byte} (h : streamBytes a = some bs) (s : State) :
    (actionEffect a s).crc = crcUpdate s.crc bs ∧ (actionEffect a s).pkt = s.pkt := by
  cases a with
  | frame f =>
    simp only [streamBytes] at h
    simp only [actionEffect]
    cases hd : decode f with
    | error c => simp only [hd, Option.some.injEq] at h; subst h; exact ⟨rfl, rfl⟩
    | ok i => cases i <;> simp only [hd, Option.some.injEq, reduceCtorEq] at h <;> subst h <;> exact ⟨rfl, rfl⟩
  | reset d => simp [streamBytes] at h
  | _ => simp only [streamBytes, Option.some.injEq] at h; subst h; exact ⟨rfl, rfl⟩

/-- The actions of a list taken one after another. -/
def takeAll : List HostAction → State → State
  | [], s => s
  | a :: l, s => takeAll l (actionEffect a s)

theorem actionEffect_setPending (a : HostAction) (s : State) (l : List HostAction) :
    actionEffect a (s.setPending l) = (actionEffect a s).setPending l := by
  cases a with
  | frame f =>
    simp only [actionEffect]
    cases decode f with
    | ok i => cases i <;> rfl
    | error c => rfl
  | _ => rfl

theorem takeAll_setPending (l : List HostAction) (s : State) (r : List HostAction) :
    takeAll l (s.setPending r) = (takeAll l s).setPending r := by
  induction l generalizing s with
  | nil => rfl
  | cons a l ih => simp only [takeAll, actionEffect_setPending, ih]

/-- The induction over a run, packaged once: the actions at the front of the queue are taken in order. -/
theorem runsTo_takeAll (l : List HostAction) (s : State) (rest : List HostAction) (h : s.pending = l ++ rest) :
    runsTo l.length s ((takeAll l s).setPending rest) := by
  induction l generalizing s with
  | nil =>
    rw [List.length_nil, runsTo_zero, takeAll]
    simp only [List.nil_append] at h
    rw [← h]
    rfl
  | cons a l ih =>
    rw [List.length_cons, runsTo_succ]
    refine ⟨_, step_cons h, ?_⟩
    have := ih (actionEffect a (s.setPending (l ++ rest))) (by simp)
    rw [actionEffect_setPending, takeAll_setPending] at this
    rw [show l.append rest = l ++ rest from rfl, actionEffect_setPending]
    exact this

end Sys2Proof.Machine
end

