-- ==== Sys2Proof/Machine/Flags.lean ====
section
/-! DEFINITION. There is nothing to define here: the block has no flags, condition codes or predicates (spec
10_state.md R24), and every command's entry says "Flags: none" (R89, R90, R91, R111). The corrupt flag of ENCODE is an
operand, not state (R23, R159): see Machine/Operands.lean. -/
end

