-- ==== Sys2Proof/Tests/Slice0.lean ====
section
/-! SUPPORT. The model's own tests. Expected values come from spec/95_test_vectors.md or from the encodings of
30_encoding.md, written out by hand; then a witness for every statement that has hypotheses. -/

namespace Sys2Proof.Tests

open Sys2Proof Sys2Proof.Machine

/-- "P" of 95_test_vectors.md section 2.9: an arbitrary earlier content of PKT. -/
def packetP : Memory :=
  Memory.ofBytes [0xE0, 0xE1, 0xE2, 0xE3, 0xE4, 0xE5, 0xE6, 0xE7, 0xE8, 0xE9, 0xEA, 0xEB, 0xEC, 0xED, 0xEE, 0xEF]

/-- A state with packet P and these actions to come. -/
def stateP (crc csum : Word) (pending : List HostAction) : State := ⟨crc, csum, packetP, pending, []⟩

/-- What a step's outcome satisfies: `p` of the next state, false if it stops. -/
def nextSatisfies (o : Host.Outcome State Fault Refusal) (p : State → Bool) : Bool :=
  match o with
  | .next t => p t
  | .fault _ => false
  | .refused _ => false

/-- The golden ENCODE frame of 95_test_vectors.md section 2.8, with the given flags byte. -/
def goldenFrame (flags : Byte) : Frame :=
  ⟨0x10, [flags, 0x00, 0x00, 0x00, 0x01, 0x12, 0x34, 0x56, 0x78, 0x90, 0xAB, 0xCD, 0xEF]⟩

/-! ### Well-formedness: one ill-formed term for each check (R73) -/

theorem test_wf_refuses_wide_imm8 : (AsmCommand.crcbyte 0x100).wellFormed = false := by decide
theorem test_wf_refuses_wide_seq : (AsmCommand.encode (2 ^ 32) 0 0).wellFormed = false := by decide
theorem test_wf_refuses_wide_payload : (AsmCommand.encode 0 (2 ^ 64) 0).wellFormed = false := by decide
theorem test_wf_refuses_wide_flag : (AsmCommand.encode 0 0 2).wellFormed = false := by decide
theorem test_wf_refuses_wide_compute_byte : (AsmCommand.compute [0x31, 0x100]).wellFormed = false := by decide
theorem test_wf_accepts_the_largest_operands : (AsmCommand.encode (2 ^ 32 - 1) (2 ^ 64 - 1) 1).wellFormed = true := by decide

/-! ### Decoding: words written out bit by bit from opcode_table.json -/

theorem test_decode_crcinit : decodeTableWord 8 0b00000001 = some .crcinit := by decide
theorem test_decode_crcbyte : decodeTableWord 16 0b00000010_00110001 = some (.crcbyte 0x31) := by decide
theorem test_decode_crcfin : decodeTableWord 8 0b00000011 = some .crcfin := by decide
theorem test_decode_encode :
    decodeTableWord 112 0x1001_00000001_1234567890ABCDEF = some (.encode 0x00000001 0x1234567890ABCDEF true) := by
  decide
theorem test_decode_encode_frame : decode (goldenFrame 0x00) = .ok (.encode 1 0x1234567890ABCDEF false) := by decide
theorem test_decode_bad_opcode_before_length : decode ⟨0x07, [0x00, 0x00]⟩ = .error .badOpcode := by decide
theorem test_decode_bad_length_before_reserved :
    decode ⟨0x10, [0xFE, 0, 0, 0, 0, 0, 0, 0, 0, 0, 0, 0, 0, 0]⟩ = .error .badLength := by decide
theorem test_decode_bit_zero_does_not_excuse_bit_one : decode (goldenFrame 0x03) = .error .badReserved := by decide

/-! ### The functions (95_test_vectors.md sections 1.8, 2.1, 2.2, 2.7) -/

theorem test_poly_is_the_reflected_form : Config.crcPoly.reverse = 0x04C11DB7 := by decide +kernel

theorem test_crc_bit_logical_shift : crcBit 0x80000000 = 0x40000000 := by decide
theorem test_crc_bit_low_bit_set : crcBit 0xFFFFFFFF = 0x92477CDF := by decide
theorem test_crc_byte_a5 : crcByte 0xA5A5A5A5 0x00 = 0xA619F2C2 := by decide
theorem test_compute_order_matters : compute [0x32, 0x31] = 0xFD7746B4 := by decide +kernel
theorem test_be32_byte_order : be32 0x01020304 = [0x01, 0x02, 0x03, 0x04] := by decide
theorem test_unbe64_byte_order :
    unbe64 0x05 0x06 0x07 0x08 0x09 0x0A 0x0B 0x0C = 0x05060708090A0B0C := by decide

/-! ### The four commands, one step each (95_test_vectors.md section 2.9) -/

theorem test_crcinit_step :
    nextSatisfies (step (stateP 0x12345678 0xAAAAAAAA [.frame ⟨0x01, []⟩]))
      (fun t => t.block == ⟨0xFFFFFFFF, 0xAAAAAAAA, packetP⟩ && t.outputs == [.response .ok]) = true := by decide
theorem test_crcbyte_step :
    nextSatisfies (step (stateP 0xFFFFFFFF 0xAAAAAAAA [.frame ⟨0x02, [0x31]⟩]))
      (fun t => t.block == ⟨0x7C231048, 0xAAAAAAAA, packetP⟩) = true := by decide
theorem test_crcbyte_zero_byte_still_shifts :
    nextSatisfies (step (stateP 0xFFFFFFFF 0xAAAAAAAA [.frame ⟨0x02, [0x00]⟩]))
      (fun t => t.crc == 0x2DFD1072) = true := by decide
theorem test_crcfin_step :
    nextSatisfies (step (stateP 0x340BC6D9 0xAAAAAAAA [.frame ⟨0x03, []⟩]))
      (fun t => t.block == ⟨0x340BC6D9, 0xCBF43926, packetP⟩) = true := by decide
theorem test_encode_step :
    nextSatisfies (step (stateP 0x12345678 0xAAAAAAAA [.frame (goldenFrame 0x00)]))
      (fun t => t.crc == 0xC41ADFEF && t.csum == 0x3BE52010 && t.wire ==
        [0x00, 0x00, 0x00, 0x01, 0x12, 0x34, 0x56, 0x78, 0x90, 0xAB, 0xCD, 0xEF, 0x3B, 0xE5, 0x20, 0x10]) = true := by
  decide +kernel
theorem test_encode_corrupt_step :
    nextSatisfies (step (stateP 0 0 [.frame (goldenFrame 0x01)]))
      (fun t => t.crc == 0xC41ADFEF && t.csum == 0xE5489EFF && t.wire.drop 12 == [0xE5, 0x48, 0x9E, 0xFF]) = true := by
  decide +kernel
theorem test_illegal_frame_step :
    nextSatisfies (step (stateP 0x12345678 0xAAAAAAAA [.frame (goldenFrame 0x02)]))
      (fun t => t.block == ⟨0x12345678, 0xAAAAAAAA, packetP⟩ && t.outputs == [.response (.err 3)]) = true := by decide

/-! ### The host's side -/

theorem test_placed_word_runs_after_reset :
    nextSatisfies (step (State.reset.withFetchWord 8 0x01)) (fun t => t.crc == 0xFFFFFFFF) = true := by decide
theorem test_read_port :
    nextSatisfies (step (stateP 0 0 [.readPkt 15])) (fun t => t.outputs == [.byte 0xEF]) = true := by decide
theorem test_zero_byte_takes_its_cell_out : Memory.ofBytes [0x00, 0x07, 0x00] = [(1, 0x07)] := by decide
theorem test_parse_encode_line :
    parseLine ['E', 'N', 'C', 'O', 'D', 'E', ' ', '0', 'x', '1', 'F', ',', ' ', '1', '0', ',', '0', ' ', ';', 'x'] =
      some (some (.encode 0x1F 10 0)) := by decide
theorem test_parse_blank_line : parseLine [' ', ';', 'x'] = some none := by decide
theorem test_parse_rejects_small_letters : parseLine ['c', 'r', 'c', 'f', 'i', 'n'] = none := by decide

/-! ### Witnesses: concrete states and operands that meet the hypotheses of each statement -/

theorem witness_bit_step_clauses : (0x00000001 : Word).getLsbD 0 = true ∧ (0x80000000 : Word).getLsbD 0 = false := by
  decide
theorem witness_table_agrees : ∀ i : Byte, (fun i => crcByte 0 i) i = crcByte 0 i := fun _ => rfl
theorem witness_serializer_indices : 0 < 4 ∧ 3 < 4 ∧ 0 < 8 ∧ 7 < 8 := by decide
theorem witness_field_ranges : 12 + 4 ≤ 16 ∧ 0 + 4 ≤ 16 ∧ 8 + 8 ≤ 16 ∧ 4 + 8 ≤ 16 := by decide
theorem witness_frame_byte_index : 0 < (goldenFrame 0).length ∧ 13 < (goldenFrame 0).length := by decide
theorem witness_operands : decode ⟨0x02, [0xFF]⟩ = .ok (.crcbyte 0xFF) ∧
    decode (goldenFrame 0x01) = .ok (.encode 1 0x1234567890ABCDEF true) := by decide
theorem witness_row_matched :
    ⟨"CRCBYTE", 2, 0x0200, 0xFF00⟩ ∈ opcodeTable ∧ rowMatches ⟨"CRCBYTE", 2, 0x0200, 0xFF00⟩ ⟨0x02, [0x31]⟩ = true ∧
    (∀ r ∈ opcodeTable, rowMatches r ⟨0xFF, [0x31]⟩ = false) := by decide
theorem witness_one_encoding : decode (goldenFrame 0x00) = .ok (.encode 1 0x1234567890ABCDEF false) := by decide
theorem witness_wrong_argument_counts :
    ([0x00] : List Byte) ≠ [] ∧ ([] : List Byte).length ≠ 1 ∧ ([0x31, 0x32] : List Byte).length ≠ 1 ∧
    (List.replicate 12 (0 : Byte)).length ≠ 13 ∧ (List.replicate 14 (0 : Byte)).length ≠ 13 := by decide
theorem witness_reserved_bits :
    (List.replicate 12 (0 : Byte)).length = 12 ∧ (0x02 : Byte) &&& 0xFE ≠ 0 ∧ (0x80 : Byte) &&& 0xFE ≠ 0 := by decide
theorem witness_canonical_packet : packetP.wf ∧ (stateP 0 0 []).pkt.wf := by decide
theorem witness_equal_bytes :
    packetP.wf ∧ packetP.wf ∧ (∀ off : BitVec 4, packetP.readAt off.toNat = packetP.readAt off.toNat) :=
  ⟨by decide, by decide, fun _ => rfl⟩
theorem witness_stream_commands_complete :
    (∃ t, exec .crcinit (stateP 0 0 []) = .next t) ∧ (∃ t, exec (.crcbyte 0) (stateP 0 0 []) = .next t) ∧
    (∃ t, exec .crcfin (stateP 0 0 []) = .next t) := ⟨⟨_, rfl⟩, ⟨_, rfl⟩, ⟨_, rfl⟩⟩
theorem witness_encode_completes :
    (stateP 0 0 []).pkt.wf ∧ ∃ t, exec (.encode 1 2 true) (stateP 0 0 []) = .next t := ⟨by decide, _, rfl⟩
theorem witness_address_outside_the_fields :
    ¬(Config.seqOff ≤ 16 ∧ 16 < Config.seqOff + Config.seqLen) ∧
    ¬(Config.payOff ≤ 16 ∧ 16 < Config.payOff + Config.payLen) ∧
    ¬(Config.sumOff ≤ 16 ∧ 16 < Config.sumOff + Config.sumLen) := by decide
theorem witness_address_outside_a_field : 12 + 4 ≤ 16 ∧ ¬(12 ≤ 11 ∧ 11 < 12 + 4) ∧ ¬(4 ≤ 12 ∧ 12 < 4 + 8) := by decide
theorem witness_index_in_a_field : 4 + 8 ≤ 16 ∧ 0 < 8 ∧ 7 < 8 := by decide
theorem witness_decoded_step : ∃ rest i,
    (stateP 0 0 [.frame ⟨0x01, []⟩, .readCrc]).pending = .frame ⟨0x01, []⟩ :: rest ∧
    decode ⟨0x01, []⟩ = .ok i := ⟨_, _, rfl, rfl⟩
theorem witness_illegal_step : ∃ rest c,
    (stateP 0 0 [.frame ⟨0x00, []⟩]).pending = .frame ⟨0x00, []⟩ :: rest ∧ decode ⟨0x00, []⟩ = .error c :=
  ⟨_, _, rfl, rfl⟩
theorem witness_reset_step : ∃ d rest,
    (stateP 0 0 [.reset ⟨0xA5A5A5A5, 0x5A5A5A5A, Vector.replicate 16 0x00⟩]).pending = .reset d :: rest := ⟨_, _, rfl⟩
theorem witness_read_steps :
    (stateP 0 0 [.readCrc]).pending = .readCrc :: [] ∧ (stateP 0 0 [.readCsum]).pending = .readCsum :: [] ∧
    (stateP 0 0 [.readPkt 0]).pending = .readPkt 0 :: [] ∧ (stateP 0 0 [.readPkt 15]).pending = .readPkt 15 :: [] := by
  decide
theorem witness_waiting : (stateP 0 0 []).pending = [] := rfl
theorem witness_placed_word : decodeTableWord 16 0x0231 = some (.crcbyte 0x31) := by decide
theorem witness_frame_pending : ∃ f rest, (stateP 0 0 [.frame ⟨0x03, []⟩]).pending = .frame f :: rest := ⟨_, _, rfl⟩
theorem witness_writers_change_elements :
    (∃ t, step (stateP 0 0 [.frame (goldenFrame 0)]) = .next t ∧
      t.pkt ≠ packetP ∧ t.csum ≠ 0 ∧ t.crc ≠ 0) :=
  ⟨_, step_cons rfl, by decide +kernel, by decide +kernel, by decide +kernel⟩
theorem witness_invariant_and_step :
    (stateP 0 0 [.frame ⟨0x00, []⟩]).Inv ∧ ∃ t, step (stateP 0 0 [.frame ⟨0x00, []⟩]) = .next t :=
  ⟨⟨by decide, by decide⟩, _, rfl⟩
theorem witness_stream :
    (stateP 0 0 (present (computeCommands [0x31, 0x32]) ++ [.readCsum])).pending =
      present (computeCommands [0x31, 0x32]) ++ [.readCsum] := rfl
theorem witness_undisturbed_stream :
    feeds (stateP 0 0 [.frame ⟨0x02, [0x31]⟩, .frame ⟨0x00, []⟩, .readCrc, .frame ⟨0x03, []⟩,
      .frame ⟨0x02, [0x32]⟩]).pending = some [0x31, 0x32] := by decide
theorem witness_disturbed_stream : ∃ rest,
    (stateP 0 0 (present [.crcinit, .crcbyte 0x31, .encode 1 0x1234567890ABCDEF false, .crcbyte 0x32, .crcfin])).pending =
      present [.crcinit, .crcbyte 0x31, .encode 1 0x1234567890ABCDEF false, .crcbyte 0x32, .crcfin] ++ rest :=
  ⟨[], by simp [stateP]⟩
theorem witness_packet_stays :
    (∀ a ∈ (stateP 0 0 [.frame ⟨0x01, []⟩, .readCrc]).pending, writesPkt a = false) ∧
    ∃ t, runsTo 2 (stateP 0 0 [.frame ⟨0x01, []⟩, .readCrc]) t := ⟨by decide, _, rfl⟩
theorem witness_recheck :
    (stateP 0 0 (present (recheckCommands packetP))).pending =
      present (recheckCommands (stateP 0 0 []).pkt) ++ [] := by simp [stateP]
theorem witness_recheck_after_encode : ∃ t,
    exec (.encode 1 2 true) (stateP 0 0 (present (recheckCommands (Memory.ofBytes (encodePacket 1 2 true))))) = .next t ∧
    t.pending = present (recheckCommands t.pkt) ++ [] :=
  ⟨_, exec_eq _ _, by simp [commandEffect, respondOk, stateP]⟩
theorem witness_hand_off : (stateP 0 0 handOff).pending = handOff ++ [] := by simp [stateP]
theorem witness_hand_off_after_encode : ∃ t,
    exec (.encode 1 2 true) (stateP 0 0 handOff) = .next t ∧ t.pending = handOff ++ [] :=
  ⟨_, exec_eq _ _, by simp [commandEffect, respondOk, stateP]⟩
theorem witness_assembler_ranges :
    0xFF ≤ 0xFF ∧ ¬ 0x100 ≤ 0xFF ∧ 2 ^ 32 - 1 < 2 ^ 32 ∧ 2 ^ 64 - 1 < 2 ^ 64 ∧ 1 ≤ 1 ∧
    ¬(2 ^ 32 < 2 ^ 32 ∧ 0 < 2 ^ 64 ∧ 0 ≤ 1) := by decide

end Sys2Proof.Tests
end

section
/-! Rules of the packet space's field operations `memRead` and `memWrite` (spec R12, R40). -/

namespace Sys2Proof.Machine

/-- A field stored by MemWrite is read back byte for byte. -/
theorem readBytes_memWrite (m : Memory) (off n : Nat) (v : BitVec (8 * n)) (h : off + n ≤ Config.pktLen) :
    (memWrite m off n v h).readBytes off n = beBytes n v := by
  simpa [memWrite] using readBytes_writeBytes m off (beBytes n v)

/-- The store and the load are inverse because both put the most significant byte at the lowest offset. -/
theorem memRead_memWrite (m : Memory) (off n : Nat) (v : BitVec (8 * n)) (h : off + n ≤ Config.pktLen) :
    memRead (memWrite m off n v h) off n h = v := by
  rw [memRead, readBytes_memWrite, beNat_beBytes, BitVec.ofNat_toNat, BitVec.setWidth_eq]

/-- Inside the field an address reads the stored byte of its place; outside it, as before. -/
theorem readAt_memWrite (m : Memory) (off n : Nat) (v : BitVec (8 * n)) (h : off + n ≤ Config.pktLen) (a : Nat) :
    (memWrite m off n v h).readAt a =
      if off ≤ a ∧ a < off + n then (beBytes n v).getD (a - off) Memory.unlisted else m.readAt a := by
  rw [memWrite, readAt_writeBytes, length_beBytes]

theorem readAt_memWrite_of_outside {m : Memory} {off n a : Nat} {v : BitVec (8 * n)} {h : off + n ≤ Config.pktLen}
    (ha : ¬(off ≤ a ∧ a < off + n)) : (memWrite m off n v h).readAt a = m.readAt a := by
  rw [readAt_memWrite, if_neg ha]

end Sys2Proof.Machine

/-- Settles O35: the value by the inverse of the byte orders of store and load, the frame by the extent of the store. -/
theorem memReadAfterMemWriteReturnsTheValue : Obligations.MemReadAfterMemWriteReturnsTheValue := by
  intro m off n h v
  exact ⟨Sys2Proof.Machine.memRead_memWrite m off n v h,
    fun _ ha => Sys2Proof.Machine.readAt_memWrite_of_outside ha⟩
end

section
/-! What one command, one action and one step do to the elements of the state, and what a power-on holds (spec
10_state.md R29 to R33). -/

namespace Sys2Proof.Machine

theorem exec_next_iff {i : Instr} {s t : State} : exec i s = .next t ↔ t = commandEffect i s := by
  rw [exec_eq, Host.Outcome.next.injEq, eq_comm]

/-- The actions to come are not a command's to change. -/
@[simp] theorem commandEffect_pending (i : Instr) (s : State) : (commandEffect i s).pending = s.pending := by
  cases i <;> rfl

/-- Every command ends with `respond OK` and gives nothing else (R134). -/
@[simp] theorem commandEffect_outputs (i : Instr) (s : State) :
    (commandEffect i s).outputs = s.outputs ++ [.response .ok] := by
  cases i <;> rfl

/-- The final step is the complement (R84). -/
theorem crcFinal_eq_not (r : Word) : crcFinal r = ~~~r := BitVec.xor_allOnes

/-- The packet of ENCODE is what its three MemWrites leave in an empty space (R111). -/
theorem ofBytes_encodePacket (seq : Word) (payload : DWord) (c : Bool) :
    Memory.ofBytes (encodePacket seq payload c) =
      storeChecksum (storeInputs Memory.empty seq payload) (corrupt c (compute (checksumInput seq payload))) :=
  (storeChecksum_storeInputs _ _ _ _).symm

/-- The checksum field of the packet is the checksum that ENCODE leaves in CSUM (R32 (b), (c)). -/
theorem memRead_checksum_ofBytes_encodePacket (seq : Word) (payload : DWord) (c : Bool) :
    memRead (Memory.ofBytes (encodePacket seq payload c)) 12 4 = corrupt c (compute (checksumInput seq payload)) := by
  rw [ofBytes_encodePacket]
  exact memRead_memWrite _ _ _ _ _

/-- The packet's first twelve bytes are the checksum input, corrupted or not. -/
theorem readBytes_inputs_ofBytes_encodePacket (seq : Word) (payload : DWord) (c : Bool) :
    (Memory.ofBytes (encodePacket seq payload c)).readBytes 0 12 = checksumInput seq payload := by
  rw [readBytes_ofBytes _ _ _ (by simp), List.drop_zero]
  exact List.take_left' (length_checksumInput seq payload)

/-- R32 (b) and (c) for both values of the corrupt flag. -/
theorem exec_encode_relations {seq : Word} {payload : DWord} {c : Bool} {s t : State}
    (h : exec (.encode seq payload c) s = .next t) :
    t.csum = corrupt c (~~~t.crc) ∧ memRead t.pkt 12 4 = t.csum ∧ t.crc = crcUpdate 0xFFFFFFFF (t.pkt.readBytes 0 12) := by
  obtain rfl := exec_next_iff.1 h
  refine ⟨congrArg (corrupt c) (crcFinal_eq_not _), memRead_checksum_ofBytes_encodePacket seq payload c, ?_⟩
  exact congrArg (crcUpdate Config.crcInit) (readBytes_inputs_ofBytes_encodePacket seq payload c).symm

/-- A space given by a draw's sixteen bytes reads as those bytes. -/
theorem readBytes_ofBytes_toList (v : Vector Byte 16) : (Memory.ofBytes v.toList).readBytes 0 16 = v.toList := by
  rw [readBytes_ofBytes _ _ _ (by simp), List.drop_zero, List.take_of_length_le (by simp)]

/-- After a power-on the transport would get the sixteen bytes drawn (R150). -/
theorem powerOn_wire (d : ResetDraw) : (State.powerOn d).wire = d.pkt.toList := readBytes_ofBytes_toList d.pkt

/-! ### The step as a function of the block and the frame (R29) -/

/-- A block with nothing to come and nothing answered. -/
def Block.toState (b : Block) : State := { crc := b.crc, csum := b.csum, pkt := b.pkt, pending := [], outputs := [] }

/-- The function of R29: the new block by the frame's effect on the old block alone, the response by the frame. -/
def Block.afterFrame (b : Block) (f : Frame) : Block × Response :=
  ((actionEffect (.frame f) b.toState).block, responseTo f)

theorem actionEffect_frame_ok {f : Frame} {i : Instr} (h : decode f = .ok i) (s : State) :
    actionEffect (.frame f) s = commandEffect i s := by
  simp only [actionEffect, h]

theorem actionEffect_frame_error {f : Frame} {c : IllegalCause} (h : decode f = .error c) (s : State) :
    actionEffect (.frame f) s = raiseIllegal c s := by
  simp only [actionEffect, h]

/-- A command reads nothing of the state but CRC, CSUM and PKT. -/
theorem commandEffect_block (i : Instr) (s : State) :
    (commandEffect i s).block = (commandEffect i s.block.toState).block := by
  cases i <;> rfl

theorem actionEffect_frame_block (f : Frame) (s : State) :
    (actionEffect (.frame f) s).block = (s.block.afterFrame f).1 := by
  rw [Block.afterFrame]
  cases hd : decode f with
  | ok i => rw [actionEffect_frame_ok hd, actionEffect_frame_ok hd, commandEffect_block]
  | error c => rw [actionEffect_frame_error hd, actionEffect_frame_error hd]; rfl

/-- A frame gives exactly one output, its response (R134). -/
theorem actionEffect_frame_outputs (f : Frame) (s : State) :
    (actionEffect (.frame f) s).outputs = s.outputs ++ [.response (responseTo f)] := by
  cases hd : decode f with
  | ok i => rw [actionEffect_frame_ok hd, commandEffect_outputs, responseTo, hd]
  | error c => rw [actionEffect_frame_error hd, raiseIllegal, emit_outputs, responseTo, hd]

/-- A state is its block, its actions to come and its answers. -/
theorem state_eq_of_block {s : State} {b : Block} (h : s.block = b) :
    s = { crc := b.crc, csum := b.csum, pkt := b.pkt, pending := s.pending, outputs := s.outputs } := by
  rw [← h]; rfl

/-! ### The access table (R30), and runs -/

section
variable {α : Type} {e : State → α} {writes : HostAction → Bool}

/-- An element that outputs do not touch stays, unless the action is a reset or a command that changes it. -/
theorem actionEffect_keeps (emit_keeps : ∀ s o, e (s.emit o) = e s) {a : HostAction} (s : State)
    (not_reset : ∀ d, a ≠ .reset d)
    (command_keeps : ∀ f i, a = .frame f → decode f = .ok i → e (commandEffect i s) = e s) :
    e (actionEffect a s) = e s := by
  cases a with
  | frame f =>
    cases hd : decode f with
    | ok i => rw [actionEffect_frame_ok hd, command_keeps f i rfl hd]
    | error c => rw [actionEffect_frame_error hd]; exact emit_keeps s _
  | reset d => exact absurd rfl (not_reset d)
  | readCrc | readCsum | readPkt => exact emit_keeps s _

/-- An element that only its writers change has changed over a step only if the action taken was a writer. -/
theorem exists_writer_of_step_ne (setPending_keeps : ∀ s l, e (s.setPending l) = e s)
    (others_keep : ∀ a s, writes a = false → e (actionEffect a s) = e s)
    {s t : State} (h : step s = .next t) (hne : e t ≠ e s) :
    ∃ a rest, s.pending = a :: rest ∧ writes a = true := by
  obtain ⟨-, rfl⟩ | ⟨a, rest, hp, rfl⟩ := step_cases h
  · exact absurd rfl hne
  · refine ⟨a, rest, hp, ?_⟩
    by_contra hw
    exact hne (by rw [others_keep a _ (Bool.eq_false_iff.2 hw), setPending_keeps])

end

theorem actionEffect_pkt_of_writesPkt_eq_false (a : HostAction) (s : State) (h : writesPkt a = false) :
    (actionEffect a s).pkt = s.pkt := by
  refine actionEffect_keeps emit_pkt s ?_ ?_
  · rintro d rfl; cases h
  · rintro f i rfl hd
    cases i with
    | encode seq payload c => simp [writesPkt, hd] at h
    | crcinit | crcbyte | crcfin => rfl

theorem actionEffect_csum_of_writesCsum_eq_false (a : HostAction) (s : State) (h : writesCsum a = false) :
    (actionEffect a s).csum = s.csum := by
  refine actionEffect_keeps emit_csum s ?_ ?_
  · rintro d rfl; cases h
  · rintro f i rfl hd
    cases i with
    | crcfin | encode => simp [writesCsum, hd] at h
    | crcinit | crcbyte => rfl

theorem actionEffect_crc_of_writesCrc_eq_false (a : HostAction) (s : State) (h : writesCrc a = false) :
    (actionEffect a s).crc = s.crc := by
  refine actionEffect_keeps emit_crc s ?_ ?_
  · rintro d rfl; cases h
  · rintro f i rfl hd
    cases i with
    | crcinit | crcbyte | encode => simp [writesCrc, hd] at h
    | crcfin => rfl

theorem exists_writesPkt_of_step_pkt_ne {s t : State} (h : step s = .next t) (hne : t.pkt ≠ s.pkt) :
    ∃ a rest, s.pending = a :: rest ∧ writesPkt a = true :=
  exists_writer_of_step_ne setPending_pkt actionEffect_pkt_of_writesPkt_eq_false h hne

/-- A step consumes the action it takes and no other. -/
theorem step_pending {s t : State} (h : step s = .next t) : t.pending = s.pending.tail := by
  obtain ⟨hp, rfl⟩ | ⟨a, rest, hp, rfl⟩ := step_cases h
  · rw [hp]; rfl
  · rw [actionEffect_pending, setPending_pending, hp, List.tail_cons]

theorem step_pkt_of_no_writer {s t : State} (hw : ∀ a ∈ s.pending, writesPkt a = false) (h : step s = .next t) :
    t.pkt = s.pkt := by
  by_contra hne
  obtain ⟨a, rest, hp, ha⟩ := exists_writesPkt_of_step_pkt_ne h hne
  have hno : writesPkt a = false := hw a (by simp [hp])
  simp [hno] at ha

/-- What no action to come writes stays over a run, since every step leaves a part of the actions to come. -/
theorem runsTo_pkt_of_no_writer {n : Nat} {s t : State} (hw : ∀ a ∈ s.pending, writesPkt a = false)
    (h : runsTo n s t) : t.pkt = s.pkt := by
  induction n generalizing s with
  | zero => rw [runsTo_zero.1 h]
  | succ n ih =>
    obtain ⟨u, hstep, hrun⟩ := runsTo_succ.1 h
    have hu : ∀ a ∈ u.pending, writesPkt a = false := fun a ha =>
      hw a (List.mem_of_mem_tail (step_pending hstep ▸ ha))
    rw [ih hu hrun, step_pkt_of_no_writer hw hstep]

end Sys2Proof.Machine

open Sys2Proof.Machine

/-- Settles O34: after ENCODE by the relations for both flags, since `corrupt` is the exclusive-OR or nothing. -/
theorem relationsRightAfterCrcfinAndEncode : Obligations.RelationsRightAfterCrcfinAndEncode :=
  ⟨fun s => ⟨_, exec_eq .crcfin s, crcFinal_eq_not s.crc⟩,
    fun _ _ s => ⟨_, exec_eq _ s, exec_encode_relations (exec_eq _ s)⟩,
    fun _ _ s => ⟨_, exec_eq _ s, exec_encode_relations (exec_eq _ s)⟩⟩

/-- Settles O45: the function is the frame's effect on the block alone, with the frame's response. -/
theorem stepIsAFunctionOfBlockAndFrame : Obligations.StepIsAFunctionOfBlockAndFrame := by
  refine ⟨Block.afterFrame, fun s f rest hp => ?_⟩
  rw [step_cons hp, state_eq_of_block (actionEffect_frame_block f (s.setPending rest)), actionEffect_pending,
    actionEffect_frame_outputs]
  rfl

/-- Settles O46: each element by what the actions that do not write it keep. -/
theorem onlyTheAccessTablesWritersChangeAnElement : Obligations.OnlyTheAccessTablesWritersChangeAnElement :=
  fun _ _ h =>
    ⟨exists_writesPkt_of_step_pkt_ne h,
      exists_writer_of_step_ne setPending_csum actionEffect_csum_of_writesCsum_eq_false h,
      exists_writer_of_step_ne setPending_crc actionEffect_crc_of_writesCrc_eq_false h⟩

/-- Settles O54, by induction on the number of steps. -/
theorem packetStaysUntilTheNextEncodeOrReset : Obligations.PacketStaysUntilTheNextEncodeOrReset :=
  fun _ _ _ hw h => runsTo_pkt_of_no_writer hw h

/-- Settles O31: the one next state of each command, field by field. -/
theorem streamCommandsLeaveTheRestUnchanged : Obligations.StreamCommandsLeaveTheRestUnchanged := by
  refine ⟨fun s t h => ?_, fun imm8 s t h => ?_, fun s t h => ?_⟩ <;> obtain rfl := exec_next_iff.1 h
  · exact ⟨rfl, fun _ => rfl, commandEffect_pending .crcinit s, commandEffect_outputs .crcinit s⟩
  · exact ⟨rfl, fun _ => rfl, commandEffect_pending (.crcbyte imm8) s, commandEffect_outputs (.crcbyte imm8) s⟩
  · exact ⟨rfl, fun _ => rfl, commandEffect_pending .crcfin s, commandEffect_outputs .crcfin s⟩

/-- Settles O41: the packet space of a power-on reads as the sixteen bytes of its draw. -/
theorem powerOnHoldsTheFreeValues : Obligations.PowerOnHoldsTheFreeValues :=
  ⟨rfl, rfl, powerOn_wire _, rfl, rfl⟩

/-- Settles O42: a read takes one action, and its whole effect is one output. -/
theorem hostReadsReturnTheContentAndChangeNothing : Obligations.HostReadsReturnTheContentAndChangeNothing :=
  fun _ _ => ⟨fun hp => step_cons hp, fun hp => step_cons hp, fun _ hp => step_cons hp⟩
end

section
/-! The packet space through its ports: the bytes of a stored field, the reads that hand the packet over, and equality of
contents (spec 20_memory.md R40, R41, R45, R52). -/

namespace Sys2Proof.Machine

/-! ### Fields byte by byte -/

theorem getD_beBytes {n i : Nat} (v : BitVec (8 * n)) (hi : i < n) (d : Byte) :
    (beBytes n v).getD i d = v.extractLsb' (8 * (n - 1 - i)) 8 := by
  simp [beBytes, hi]

/-- R45: a stored field reads back most significant byte first. -/
theorem readAt_memWrite_add {m : Memory} {off n : Nat} {v : BitVec (8 * n)} {h : off + n ≤ Config.pktLen} {i : Nat}
    (hi : i < n) : (memWrite m off n v h).readAt (off + i) = v.extractLsb' (8 * (n - 1 - i)) 8 := by
  rw [readAt_memWrite, if_pos (by omega), Nat.add_sub_cancel_left, getD_beBytes v hi]

section
variable (seq : Word) (payload : DWord) (c : Bool)

/-- ENCODE's packet as its three fields at the offsets of R52. -/
theorem ofBytes_encodePacket_eq_fields :
    Memory.ofBytes (encodePacket seq payload c) =
      memWrite (memWrite (memWrite Memory.empty 0 4 seq) 4 8 payload) 12 4
        (corrupt c (compute (checksumInput seq payload))) :=
  ofBytes_encodePacket seq payload c

theorem readAt_encodePacket_seq {i : Nat} (hi : i < 4) :
    (Memory.ofBytes (encodePacket seq payload c)).readAt (0 + i) = seq.extractLsb' (8 * (4 - 1 - i)) 8 := by
  rw [ofBytes_encodePacket_eq_fields, readAt_memWrite_of_outside (by omega), readAt_memWrite_of_outside (by omega),
    readAt_memWrite_add hi]

theorem readAt_encodePacket_payload {i : Nat} (hi : i < 8) :
    (Memory.ofBytes (encodePacket seq payload c)).readAt (4 + i) = payload.extractLsb' (8 * (8 - 1 - i)) 8 := by
  rw [ofBytes_encodePacket_eq_fields, readAt_memWrite_of_outside (by omega), readAt_memWrite_add hi]

theorem readAt_encodePacket_checksum {i : Nat} (hi : i < 4) :
    (Memory.ofBytes (encodePacket seq payload c)).readAt (12 + i) =
      (corrupt c (compute (checksumInput seq payload))).extractLsb' (8 * (4 - 1 - i)) 8 := by
  rw [ofBytes_encodePacket_eq_fields, readAt_memWrite_add hi]

/-- After ENCODE the transport would get the packet of R110. -/
theorem commandEffect_encode_wire (s : State) :
    (commandEffect (.encode seq payload c) s).wire = encodePacket seq payload c :=
  readBytes_writeBytes Memory.empty 0 (encodePacket seq payload c)

end

/-! ### Handing the packet over -/

/-- The offsets of the packet space in wire order. -/
def wireOffsets : List (BitVec 4) := (List.range Config.pktLen).map (BitVec.ofNat 4)

theorem handOff_eq_map : handOff = wireOffsets.map .readPkt := rfl

theorem wire_eq_map (s : State) : s.wire = wireOffsets.map s.readPkt := readBytes_eq_map s.pkt 0 Config.pktLen

/-- Reads of PKT in a row: one byte of output each, and nothing else changes. -/
theorem takeAll_readPkt (offs : List (BitVec 4)) (s : State) :
    takeAll (offs.map .readPkt) s = { s with outputs := s.outputs ++ (offs.map s.readPkt).map .byte } := by
  induction offs generalizing s with
  | nil => simp [takeAll]
  | cons off offs ih =>
    have same : (hostReadPkt off s).readPkt = s.readPkt := rfl
    have head : (hostReadPkt off s).outputs = s.outputs ++ [.byte (s.readPkt off)] := rfl
    simp only [List.map_cons, takeAll, actionEffect, ih, same, head, List.append_assoc, List.singleton_append]
    rfl

/-- R41: sixteen steps hand over the bytes in wire order and consume the reads. -/
theorem runsTo_handOff {s : State} {rest : List HostAction} (h : s.pending = handOff ++ rest) :
    runsTo 16 s { s with pending := rest, outputs := s.outputs ++ s.wire.map .byte } := by
  have run := runsTo_takeAll handOff s rest h
  rw [handOff_eq_map, takeAll_readPkt, ← wire_eq_map] at run
  exact run

/-! ### Equal contents -/

/-- In canonical form the sixteen bytes decide the whole list, since every other address reads as unlisted. -/
theorem eq_of_wf_of_bytes {m m' : Memory} (hm : m.wf) (hm' : m'.wf)
    (h : ∀ off : BitVec 4, m.readAt off.toNat = m'.readAt off.toNat) : m = m' := by
  refine ext_of_wf m m' hm hm' fun a => ?_
  by_cases ha : a < Config.pktLen
  · have hoff : (BitVec.ofNat 4 a).toNat = a := (BitVec.toNat_ofNat a 4).trans (Nat.mod_eq_of_lt ha)
    rw [← hoff]
    exact h _
  · rw [readAt_of_wf m hm a (by omega), readAt_of_wf m' hm' a (by omega)]

end Sys2Proof.Machine

open Sys2Proof.Machine

/-- Settles O29: each byte lies in one of the three fields that ENCODE stores, each most significant byte first. -/
theorem wireFormatByteByByte : Obligations.WireFormatByteByByte := by
  intro s p c st
  have seq {i : Nat} (hi : i < 4) := readAt_encodePacket_seq s p c hi
  have pay {i : Nat} (hi : i < 8) := readAt_encodePacket_payload s p c hi
  have sum {i : Nat} (hi : i < 4) := readAt_encodePacket_checksum s p c hi
  refine ⟨_, exec_eq (.encode s p c) st, ?_⟩
  exact ⟨seq (i := 0) (by decide), seq (i := 1) (by decide), seq (i := 2) (by decide), seq (i := 3) (by decide),
    pay (i := 0) (by decide), pay (i := 1) (by decide), pay (i := 2) (by decide), pay (i := 3) (by decide),
    pay (i := 4) (by decide), pay (i := 5) (by decide), pay (i := 6) (by decide), pay (i := 7) (by decide),
    sum (i := 0) (by decide), sum (i := 1) (by decide), sum (i := 2) (by decide), sum (i := 3) (by decide)⟩

/-- Settles O36: the byte of a field's place in its big-endian byte list. -/
theorem fieldsAreStoredBigEndian : Obligations.FieldsAreStoredBigEndian :=
  fun _ _ _ _ _ _ hi => readAt_memWrite_add hi

/-- Settles O37: outside the sixteen bytes, canonical spaces read alike anyway. -/
theorem canonicalPacketSpacesWithEqualBytesAreEqual : Obligations.CanonicalPacketSpacesWithEqualBytesAreEqual :=
  fun _ _ => eq_of_wf_of_bytes

/-- Settles O56: the reads of the hand-off in a row, and after ENCODE the packet they read. -/
theorem handOffReadsThePacketInWireOrder : Obligations.HandOffReadsThePacketInWireOrder := by
  refine ⟨fun s rest hp => ⟨_, runsTo_handOff hp, rfl, rfl, rfl⟩, fun seq payload c s t rest hexec hp => ?_⟩
  refine ⟨_, runsTo_handOff hp, ?_⟩
  rw [exec_next_iff.1 hexec, commandEffect_encode_wire]
end

section
/-! The model's invariant: at power-on, and through every operation, command, action and step (spec R40, R132, R134). -/

namespace Sys2Proof.Machine

/-! ### The operations on the state keep it -/

section
variable {s : State}

theorem State.Inv.setCrc (hs : s.Inv) (v : Word) : (s.setCrc v).Inv := ⟨hs.pkt_wf, hs.outputs_legal⟩

theorem State.Inv.setCsum (hs : s.Inv) (v : Word) : (s.setCsum v).Inv := ⟨hs.pkt_wf, hs.outputs_legal⟩

theorem State.Inv.setPending (hs : s.Inv) (l : List HostAction) : (s.setPending l).Inv :=
  ⟨hs.pkt_wf, hs.outputs_legal⟩

theorem State.Inv.setPkt (hs : s.Inv) {m : Memory} (hm : m.wf) : (s.setPkt m).Inv := ⟨hm, hs.outputs_legal⟩

theorem State.Inv.emit (hs : s.Inv) {o : Output} (ho : o.legal = true) : (s.emit o).Inv := by
  refine ⟨hs.pkt_wf, fun o' ho' => ?_⟩
  rw [emit_outputs, List.mem_append, List.mem_singleton] at ho'
  obtain hmem | rfl := ho'
  · exact hs.outputs_legal o' hmem
  · exact ho

/-- R132: the codes of the three causes are the legal ones. -/
theorem legal_response_err_code (c : IllegalCause) : (Output.response (.err c.code)).legal = true := by
  cases c <;> rfl

/-! ### Commands, actions and steps keep it -/

theorem State.Inv.respondOk (hs : s.Inv) : (respondOk s).Inv := hs.emit rfl

theorem State.Inv.raiseIllegal (hs : s.Inv) (c : IllegalCause) : (raiseIllegal c s).Inv :=
  hs.emit (legal_response_err_code c)

theorem State.Inv.applyReset (hs : s.Inv) (d : ResetDraw) : (applyReset d s).Inv :=
  ((hs.setCrc d.crc).setCsum d.csum).setPkt (ofBytes_wf _ (by simp))

theorem State.Inv.commandEffect (hs : s.Inv) (i : Instr) : (commandEffect i s).Inv := by
  cases i with
  | crcinit => exact (hs.setCrc _).respondOk
  | crcbyte imm8 => exact (hs.setCrc _).respondOk
  | crcfin => exact (hs.setCsum _).respondOk
  | encode seq payload c =>
    have packet_wf : (Memory.ofBytes (encodePacket seq payload c)).wf := ofBytes_wf _ (by simp)
    exact (((hs.setPkt packet_wf).setCrc _).setCsum _).respondOk

theorem State.Inv.actionEffect (hs : s.Inv) (a : HostAction) : (actionEffect a s).Inv := by
  cases a with
  | frame f =>
    cases hd : decode f with
    | ok i => rw [actionEffect_frame_ok hd]; exact hs.commandEffect i
    | error c => rw [actionEffect_frame_error hd]; exact hs.raiseIllegal c
  | reset d => exact hs.applyReset d
  | readCrc | readCsum | readPkt => exact hs.emit rfl

theorem State.Inv.step (hs : s.Inv) {t : State} (h : step s = .next t) : t.Inv := by
  obtain ⟨-, rfl⟩ | ⟨a, rest, -, rfl⟩ := step_cases h
  · exact hs
  · exact (hs.setPending rest).actionEffect a

end

theorem powerOn_inv (d : ResetDraw) : (State.powerOn d).Inv :=
  ⟨ofBytes_wf _ (by simp), List.forall_mem_nil _⟩

end Sys2Proof.Machine

open Sys2Proof.Machine

/-- Settles O47: a waiting step keeps the state, and every action keeps the invariant. -/
theorem stepKeepsTheInvariant : Obligations.StepKeepsTheInvariant :=
  fun _ _ hs h => hs.step h

/-- Settles O48: the draw's sixteen bytes are stored in canonical form, and reset is one such power-on. -/
theorem powerOnMeetsTheInvariant : Obligations.PowerOnMeetsTheInvariant :=
  ⟨powerOn_inv, powerOn_inv _⟩
end

section
/-! The byte orderer as an equivalence of lists and numbers, and bits of a number by its bytes (spec 30_encoding.md R61,
41_packet_encoder.md R102). -/

namespace Sys2Proof

/-! ### Parts of a big-endian number -/

theorem beNat_append_div (as bs : List Byte) : beNat (as ++ bs) / 256 ^ bs.length = beNat as := by
  rw [beNat_append, mul_comm, Nat.mul_add_div (by positivity), Nat.div_eq_of_lt (beNat_lt bs), Nat.add_zero]

theorem beNat_append_mod (as bs : List Byte) : beNat (as ++ bs) % 256 ^ bs.length = beNat bs := by
  rw [beNat_append, Nat.mul_add_mod_of_lt (beNat_lt bs)]

theorem beNat_singleton (b : Byte) : beNat [b] = b.toNat := by simp [beNat]

/-- The byte between two parts of a list is the last of what stands above the second part. -/
theorem beNat_append_cons_div_mod (as bs : List Byte) (b : Byte) :
    beNat (as ++ b :: bs) / 256 ^ bs.length % 256 = b.toNat := by
  have top : beNat (as ++ b :: bs) / 256 ^ bs.length = beNat (as ++ [b]) := by
    rw [← beNat_append_div (as ++ [b]) bs, List.append_assoc, List.singleton_append]
  rw [top, ← beNat_singleton b]
  exact beNat_append_mod as [b]

theorem beNat_div_mod (bs : List Byte) {j : Nat} (hj : j < bs.length) (d : Byte) :
    beNat bs / 2 ^ (8 * (bs.length - 1 - j)) % 2 ^ 8 = (bs.getD j d).toNat := by
  have parts : bs.take j ++ bs[j] :: bs.drop (j + 1) = bs := by simp
  have rest : (bs.drop (j + 1)).length = bs.length - 1 - j := by rw [List.length_drop]; omega
  have field := beNat_append_cons_div_mod (bs.take j) (bs.drop (j + 1)) bs[j]
  rw [parts, rest] at field
  rw [pow_mul, List.getD_eq_getElem _ _ hj]
  exact field

/-! ### Round trips -/

theorem beNat_inj {as bs : List Byte} (hlen : as.length = bs.length) : beNat as = beNat bs ↔ as = bs := by
  refine ⟨fun h => ?_, congrArg beNat⟩
  refine List.ext_getElem hlen fun j ha hb => ?_
  have hbyte := beNat_div_mod bs hb 0
  rw [← h, ← hlen, beNat_div_mod as ha 0, List.getD_eq_getElem _ _ ha, List.getD_eq_getElem _ _ hb] at hbyte
  exact BitVec.eq_of_toNat_eq hbyte

theorem be32_eq_iff (v : Word) (a b c d : Byte) : be32 v = [a, b, c, d] ↔ unbe32 a b c d = v := by
  rw [← beNat_inj (by rfl), beNat_be32, ← toNat_unbe32, BitVec.toNat_inj, eq_comm]

theorem be64_eq_iff (v : DWord) (a b c d e f g h : Byte) :
    be64 v = [a, b, c, d, e, f, g, h] ↔ unbe64 a b c d e f g h = v := by
  rw [← beNat_inj (by rfl), beNat_be64, ← toNat_unbe64, BitVec.toNat_inj, eq_comm]

/-- Any twelve bytes are a Sequence field and a Payload field. -/
theorem exists_be32_append_be64 {bs : List Byte} (h : bs.length = 12) :
    ∃ (seq : Word) (payload : DWord), bs = be32 seq ++ be64 payload := by
  obtain ⟨a, b, c, d, rest, rfl⟩ : ∃ a b c d rest, bs = a :: b :: c :: d :: rest := by
    match bs, h with
    | a :: b :: c :: d :: rest, _ => exact ⟨a, b, c, d, rest, rfl⟩
  match rest, h with
  | [e, f, g, h, i, j, k, l], _ =>
    refine ⟨unbe32 a b c d, unbe64 e f g h i j k l, ?_⟩
    rw [(be32_eq_iff _ a b c d).2 rfl, (be64_eq_iff _ e f g h i j k l).2 rfl]
    rfl

/-! ### Masks -/

theorem beNat_cons_div (b : Byte) (bs : List Byte) : beNat (b :: bs) / 256 ^ bs.length = b.toNat :=
  (beNat_append_div [b] bs).trans (beNat_singleton b)

theorem beNat_cons_mod (b : Byte) (bs : List Byte) : beNat (b :: bs) % 256 ^ bs.length = beNat bs :=
  beNat_append_mod [b] bs

/-- The AND of two numbers is the AND of their bytes. -/
theorem beNat_and {as bs : List Byte} (hlen : as.length = bs.length) :
    beNat as &&& beNat bs = beNat (List.zipWith (· &&& ·) as bs) := by
  match as, bs, hlen with
  | [], [], _ => rfl
  | a :: as, b :: bs, hlen =>
    rw [List.length_cons, List.length_cons, Nat.add_right_cancel_iff] at hlen
    have hpow : (256 : Nat) ^ as.length = 2 ^ (8 * as.length) := by rw [pow_mul]; rfl
    have top : (beNat (a :: as) &&& beNat (b :: bs)) / 256 ^ as.length = (a &&& b).toNat := by
      rw [hpow, Nat.and_div_two_pow, ← hpow, beNat_cons_div, hlen, beNat_cons_div, BitVec.toNat_and]
    have low : (beNat (a :: as) &&& beNat (b :: bs)) % 256 ^ as.length =
        beNat (List.zipWith (· &&& ·) as bs) := by
      rw [hpow, Nat.and_mod_two_pow, ← hpow, beNat_cons_mod, hlen, beNat_cons_mod, beNat_and hlen]
    rw [← Nat.div_add_mod' (beNat (a :: as) &&& beNat (b :: bs)) (256 ^ as.length), top, low, List.zipWith_cons_cons,
      beNat_cons, List.length_zipWith, ← hlen, Nat.min_self]

/-- A mask of zero bytes leaves zero bytes. -/
theorem zipWith_and_replicate_zero (bs : List Byte) :
    List.zipWith (· &&& ·) bs (List.replicate bs.length 0) = List.replicate bs.length 0 := by
  induction bs with
  | nil => rfl
  | cons b bs ih => simpa [List.replicate_succ] using ih

end Sys2Proof
end

section
/-! The decoder and the encoder as inverses (spec 30_encoding.md R67, R71). -/

namespace Sys2Proof

/-! ### The operand forms -/

theorem operandsN_eq_some_iff {l : List Byte} {u : Unit} : operandsN l = some u ↔ l = [] := by
  cases l <;> simp [operandsN]

theorem operandsB_eq_some_iff {l : List Byte} {b : Byte} : operandsB l = some b ↔ l = [b] := by
  match l with
  | [] => simp [operandsB]
  | [a] => simp [operandsB]
  | _ :: _ :: _ => simp [operandsB]

theorem operandsE_fields (flags : Byte) (seq : Word) (payload : DWord) :
    operandsE (flags :: (be32 seq ++ be64 payload)) = some (flags, seq, payload) := by
  have hseq := (be32_eq_iff seq _ _ _ _).1 rfl
  have hpay := (be64_eq_iff payload _ _ _ _ _ _ _ _).1 rfl
  conv_rhs => rw [← hseq, ← hpay]
  rfl

theorem length_of_operandsE {l : List Byte} {r : Byte × Word × DWord} (h : operandsE l = some r) : l.length = 13 := by
  unfold operandsE at h
  split at h
  · rfl
  · cases h

/-- Format E has one spelling of its operands: the flags byte and the two big-endian fields. -/
theorem operandsE_eq_some_iff {l : List Byte} {flags : Byte} {seq : Word} {payload : DWord} :
    operandsE l = some (flags, seq, payload) ↔ l = flags :: (be32 seq ++ be64 payload) := by
  refine ⟨fun h => ?_, fun h => h ▸ operandsE_fields flags seq payload⟩
  match l, length_of_operandsE h with
  | flags' :: bs, hlen =>
    obtain ⟨seq', payload', rfl⟩ := exists_be32_append_be64 (Nat.succ.inj hlen)
    rw [operandsE_fields] at h
    cases h
    rfl

/-- A flags byte with the reserved bits clear carries its corrupt flag and nothing else (R64). -/
theorem flagsByte_corruptFlag {flags : Byte} (h : reservedClear flags = true) : flagsByte (corruptFlag flags) = flags := by
  revert flags
  decide

@[simp] theorem reservedClear_flagsByte (c : Bool) : reservedClear (flagsByte c) = true := by cases c <;> rfl

@[simp] theorem corruptFlag_flagsByte (c : Bool) : corruptFlag (flagsByte c) = c := by cases c <;> rfl

/-! ### The round trip -/

theorem decode_of_operandsE {args : List Byte} {flags : Byte} {seq : Word} {payload : DWord}
    (h : operandsE args = some (flags, seq, payload)) :
    decode ⟨opEncode, args⟩ =
      if reservedClear flags then .ok (.encode seq payload (corruptFlag flags)) else .error .badReserved := by
  simp [decode, h, opEncode, opCrcinit, opCrcbyte, opCrcfin]

theorem decode_encode (i : Instr) : decode (encode i) = .ok i := by
  cases i with
  | crcinit | crcbyte | crcfin => rfl
  | encode seq payload c =>
    rw [encode, decode_of_operandsE (operandsE_fields (flagsByte c) seq payload), reservedClear_flagsByte,
      corruptFlag_flagsByte, if_pos rfl]

/-- A legal frame is the encoding of its command, since its operand form and its reserved bits leave one spelling. -/
theorem eq_encode_of_decode {f : Frame} {i : Instr} (h : decode f = .ok i) : f = encode i := by
  obtain ⟨op, args⟩ := f
  simp only [decode] at h
  split at h
  next hop =>
    split at h <;> cases h
    next hargs => rw [hop, operandsN_eq_some_iff.1 hargs, encode]
  split at h
  next hop =>
    split at h <;> cases h
    next hargs => rw [hop, operandsB_eq_some_iff.1 hargs, encode]
  split at h
  next hop =>
    split at h <;> cases h
    next hargs => rw [hop, operandsN_eq_some_iff.1 hargs, encode]
  split at h
  next hop =>
    split at h
    next => cases h
    next hargs =>
      split at h <;> cases h
      next hflags => rw [hop, operandsE_eq_some_iff.1 hargs, encode, flagsByte_corruptFlag hflags]
  next => cases h

theorem decode_eq_ok_iff {f : Frame} {i : Instr} : decode f = .ok i ↔ f = encode i :=
  ⟨eq_encode_of_decode, fun h => h ▸ decode_encode i⟩

end Sys2Proof

/-- Settles O21: the operand form of each command's frame reads back the fields that were written. -/
theorem decodeOfEncodeIsTheCommand : Obligations.DecodeOfEncodeIsTheCommand :=
  Sys2Proof.decode_encode

/-- Settles O22: each opcode's operand form determines the frame. -/
theorem eachCommandHasOneEncoding : Obligations.EachCommandHasOneEncoding :=
  fun _ _ => Sys2Proof.eq_encode_of_decode
end

section
/-! The bits of a frame: its bytes, its operand fields, and the match and mask table (spec 30_encoding.md R61, R65, R66). -/

namespace Sys2Proof

theorem length_bytes (f : Frame) : f.bytes.length = f.length := rfl

/-! ### Operands as fields -/

theorem bits_encode_crcbyte (imm8 : Byte) : (encode (.crcbyte imm8)).bits = opCrcbyte.toNat * 2 ^ 8 + imm8.toNat := by
  simp [Frame.bits, Frame.bytes, encode, beNat]

theorem toNat_flagsByte (c : Bool) : (flagsByte c).toNat = c.toNat := by cases c <;> rfl

theorem bits_encode_encode (seq : Word) (payload : DWord) (c : Bool) :
    (encode (.encode seq payload c)).bits =
      (opEncode.toNat * 2 ^ 8 + c.toNat) * 2 ^ 96 + seq.toNat * 2 ^ 64 + payload.toNat := by
  have parts : (encode (.encode seq payload c)).bytes = [opEncode, flagsByte c] ++ (be32 seq ++ be64 payload) := rfl
  rw [Frame.bits, parts, beNat_append, beNat_append, beNat_be32, beNat_be64]
  simp only [beNat, toNat_flagsByte, List.length_append, length_be32, length_be64, List.length_cons, List.length_nil]
  ring

/-! ### The match and mask table -/

/-- A row with its match and its mask written as bytes matches byte by byte. -/
theorem rowMatches_iff (f : Frame) (name : String) (n : Nat) (matchBytes maskBytes : List Byte)
    (hmatch : matchBytes.length = n) (hmask : maskBytes.length = n) :
    rowMatches ⟨name, n, beNat matchBytes, beNat maskBytes⟩ f = true ↔
      f.bytes.length = n ∧ List.zipWith (· &&& ·) f.bytes maskBytes = matchBytes := by
  simp only [rowMatches, Bool.and_eq_true, beq_iff_eq, ← length_bytes]
  refine and_congr_right fun hlen => ?_
  rw [Frame.bits, beNat_and (hlen.trans hmask.symm), beNat_inj]
  rw [List.length_zipWith, hlen, hmask, hmatch, Nat.min_self]

theorem and_0xFF (b : Byte) : b &&& 0xFF = b := BitVec.and_allOnes

/-- R62: a row whose mask covers one byte matches the frame of that byte alone. -/
theorem rowMatches_formatN_iff (f : Frame) (name : String) (op : Byte) :
    rowMatches ⟨name, 1, beNat [op], beNat [0xFF]⟩ f = true ↔ f = ⟨op, []⟩ := by
  rw [rowMatches_iff f name 1 [op] [0xFF] rfl rfl]
  obtain ⟨op', args⟩ := f
  cases args with
  | nil => simp only [Frame.bytes, List.zipWith_cons_cons, and_0xFF]; simp
  | cons a as => simp [Frame.bytes]

/-- R63: a row whose mask covers the first of two bytes leaves the second free. -/
theorem rowMatches_formatB_iff (f : Frame) (name : String) (op : Byte) :
    rowMatches ⟨name, 2, beNat [op, 0], beNat [0xFF, 0]⟩ f = true ↔ ∃ imm8, f = ⟨op, [imm8]⟩ := by
  rw [rowMatches_iff f name 2 [op, 0] [0xFF, 0] rfl rfl]
  obtain ⟨op', args⟩ := f
  match args with
  | [] => simp [Frame.bytes]
  | [imm8] => simp only [Frame.bytes, List.zipWith_cons_cons, and_0xFF]; simp
  | _ :: _ :: _ => simp [Frame.bytes]

theorem and_0xFE_eq_zero_iff (flags : Byte) : flags &&& 0xFE = 0 ↔ ∃ c, flags = flagsByte c := by
  constructor
  · intro h
    exact ⟨corruptFlag flags, (flagsByte_corruptFlag (beq_iff_eq.2 h)).symm⟩
  · rintro ⟨c, rfl⟩
    exact beq_iff_eq.1 (reservedClear_flagsByte c)

/-- R64: a row whose mask covers the opcode and the reserved bits leaves the corrupt flag and twelve bytes free. -/
theorem rowMatches_formatE_iff (f : Frame) (name : String) (op : Byte) :
    rowMatches ⟨name, 14, beNat (op :: 0 :: List.replicate 12 0), beNat (0xFF :: 0xFE :: List.replicate 12 0)⟩ f = true ↔
      ∃ seq payload c, f = ⟨op, flagsByte c :: (be32 seq ++ be64 payload)⟩ := by
  rw [rowMatches_iff f name 14 (op :: 0 :: List.replicate 12 0) (0xFF :: 0xFE :: List.replicate 12 0) rfl rfl]
  constructor
  · rintro ⟨hlen, hbytes⟩
    obtain ⟨op', args⟩ := f
    match args with
    | flags :: bs =>
      have hbs : bs.length = 12 := by simpa [Frame.bytes] using hlen
      obtain ⟨seq, payload, rfl⟩ := exists_be32_append_be64 hbs
      simp only [Frame.bytes, List.zipWith_cons_cons, and_0xFF, List.cons.injEq, and_0xFE_eq_zero_iff] at hbytes
      obtain ⟨rfl, ⟨c, rfl⟩, -⟩ := hbytes
      exact ⟨seq, payload, c, rfl⟩
  · rintro ⟨seq, payload, c, rfl⟩
    refine ⟨rfl, ?_⟩
    have free := zipWith_and_replicate_zero (be32 seq ++ be64 payload)
    have hflags := (and_0xFE_eq_zero_iff (flagsByte c)).2 ⟨c, rfl⟩
    simp only [Frame.bytes, List.zipWith_cons_cons, and_0xFF, hflags]
    exact congrArg (op :: 0 :: ·) free

theorem exists_instr_iff {p : Instr → Prop} :
    (∃ i, p i) ↔ p .crcinit ∨ (∃ imm8, p (.crcbyte imm8)) ∨ p .crcfin ∨
      ∃ seq payload c, p (.encode seq payload c) := by
  constructor
  · rintro ⟨i, hi⟩
    cases i with
    | crcinit => exact .inl hi
    | crcbyte imm8 => exact .inr (.inl ⟨imm8, hi⟩)
    | crcfin => exact .inr (.inr (.inl hi))
    | encode seq payload c => exact .inr (.inr (.inr ⟨seq, payload, c, hi⟩))
  · rintro (h | ⟨_, h⟩ | h | ⟨_, _, _, h⟩) <;> exact ⟨_, h⟩

/-- R66: the frames that match a row are the encodings of the row's commands. -/
theorem rowMatches_iff_exists_encode {r : OpcodeRow} (hr : r ∈ opcodeTable) (f : Frame) :
    rowMatches r f = true ↔ ∃ i : Instr, f = encode i ∧ i.mnemonic = r.mnemonic := by
  simp only [opcodeTable, List.mem_cons, List.not_mem_nil, or_false] at hr
  rw [exists_instr_iff]
  obtain rfl | rfl | rfl | rfl := hr
  · exact (rowMatches_formatN_iff f "CRCINIT" opCrcinit).trans (by simp [encode, Instr.mnemonic])
  · exact (rowMatches_formatB_iff f "CRCBYTE" opCrcbyte).trans (by simp [encode, Instr.mnemonic])
  · exact (rowMatches_formatN_iff f "CRCFIN" opCrcfin).trans (by simp [encode, Instr.mnemonic])
  · exact (rowMatches_formatE_iff f "ENCODE" opEncode).trans (by simp [encode, Instr.mnemonic])

theorem row_eq_of_mnemonic_eq : ∀ r ∈ opcodeTable, ∀ r' ∈ opcodeTable, r.mnemonic = r'.mnemonic → r = r' := by
  decide

theorem exists_row_of_mnemonic (i : Instr) : ∃ r ∈ opcodeTable, i.mnemonic = r.mnemonic := by
  cases i <;> simp [Instr.mnemonic, opcodeTable]

end Sys2Proof

open Sys2Proof

/-- Settles O16: the byte between the bytes above it and those below it. -/
theorem frameBitsPutByteZeroFirst : Obligations.FrameBitsPutByteZeroFirst :=
  fun f _ hj => (beNat_div_mod f.bytes hj 0).symm

/-- Settles O17: a decoded frame is its command's encoding, whose bits are the sum of its fields. -/
theorem operandsAreTheirFieldsOfTheFrame : Obligations.OperandsAreTheirFieldsOfTheFrame := by
  refine fun f => ⟨fun imm8 h => ?_, fun seq payload c h => ?_⟩ <;> obtain rfl := eq_encode_of_decode h
  · rw [bits_encode_crcbyte, Nat.mul_add_mod_of_lt imm8.isLt]
  · have hseq := seq.isLt
    have hpay := payload.isLt
    have hc := c.toNat_lt
    rw [bits_encode_encode, Nat.testBit_eq_decide_div_mod_eq]
    have hflag : ((opEncode.toNat * 2 ^ 8 + c.toNat) * 2 ^ 96 + seq.toNat * 2 ^ 64 + payload.toNat) / 2 ^ 96 % 2 =
        c.toNat := by
      rw [opEncode]
      omega
    refine ⟨?_, by omega, by omega⟩
    rw [hflag]
    cases c <;> rfl

/-- Settles O18: a row matches exactly the encodings of its commands, and a frame encodes at most one command. -/
theorem decoderAgreesWithTheOpcodeTable : Obligations.DecoderAgreesWithTheOpcodeTable := by
  intro f
  have hrow {r : OpcodeRow} (hr : r ∈ opcodeTable) :
      rowMatches r f = true ↔ ∃ i : Instr, decode f = .ok i ∧ i.mnemonic = r.mnemonic := by
    simp only [decode_eq_ok_iff, rowMatches_iff_exists_encode hr]
  refine ⟨fun r hr => hrow hr, fun r hr r' hr' h h' => ?_, fun hnone => ?_⟩
  · obtain ⟨i, hi, him⟩ := (hrow hr).1 h
    obtain ⟨i', hi', him'⟩ := (hrow hr').1 h'
    cases hi.symm.trans hi'
    exact row_eq_of_mnemonic_eq r hr r' hr' (him.symm.trans him')
  · cases hd : decode f with
    | error c => exact ⟨c, rfl⟩
    | ok i =>
      obtain ⟨r, hr, him⟩ := exists_row_of_mnemonic i
      exact absurd ((hrow hr).2 ⟨i, hd, him⟩) (by simp [hnone r hr])
end

section
/-! Commands on the command port: a decoded frame, a placed word, and the stream of COMPUTE and RECHECK
(spec 30_encoding.md R60, R67, R71, R74, R75; 40_checksum_engine.md R92). -/

namespace Sys2Proof.Machine

/-! ### One frame -/

/-- A frame that spells a command is executed, on the state from which it has been taken. -/
theorem step_frame {s : State} {f : Frame} {rest : List HostAction} {i : Instr} (hp : s.pending = .frame f :: rest)
    (hd : decode f = .ok i) : step s = exec i (s.setPending rest) := by
  rw [step_cons hp, actionEffect_frame_ok hd, exec_eq]

theorem exists_frame_of_decodeTableWord {nbits w : Nat} {i : Instr} (h : decodeTableWord nbits w = some i) :
    ∃ f, frameOfTableWord nbits w = some f ∧ decode f = .ok i := by
  unfold decodeTableWord at h
  split at h
  next => cases h
  next f hf =>
    cases hd : decode f with
    | ok j => rw [hd] at h; cases h; exact ⟨f, hf, hd⟩
    | error c => rw [hd] at h; cases h

theorem withFetchWord_of_frame {nbits w : Nat} {f : Frame} (hf : frameOfTableWord nbits w = some f) (s : State) :
    s.withFetchWord nbits w = s.setPending (.frame f :: s.pending) := by
  simp only [State.withFetchWord, hf]

/-! ### Commands in a row -/

theorem takeAll_append (l l' : List HostAction) (s : State) : takeAll (l ++ l') s = takeAll l' (takeAll l s) := by
  induction l generalizing s with
  | nil => rfl
  | cons a l ih => exact ih _

/-- Presented commands take effect one after another. -/
theorem takeAll_present_cons (i : Instr) (l : List Instr) (s : State) :
    takeAll (present (i :: l)) s = takeAll (present l) (commandEffect i s) := by
  simp only [present, List.map_cons, takeAll, actionEffect_frame_ok (decode_encode i)]

theorem present_append (l l' : List Instr) : present (l ++ l') = present l ++ present l' := List.map_append

/-- CRCBYTEs in a row run the register over their bytes, answer OK to each, and touch nothing else. -/
theorem takeAll_present_crcbytes (data : List Byte) (s : State) :
    takeAll (present (data.map .crcbyte)) s =
      { s with crc := crcUpdate s.crc data, outputs := s.outputs ++ List.replicate data.length (.response .ok) } := by
  induction data generalizing s with
  | nil => simp [present, takeAll, crcUpdate]
  | cons b bs ih =>
    have hcrc : (commandEffect (.crcbyte b) s).crc = crcByte s.crc b := rfl
    rw [List.map_cons, takeAll_present_cons, ih, commandEffect_outputs, hcrc, List.append_assoc, List.singleton_append]
    rfl

/-- COMPUTE's expansion: CSUM is the checksum of the bytes, CRC the running value, and PKT stays. -/
theorem takeAll_present_computeCommands (data : List Byte) (s : State) :
    takeAll (present (computeCommands data)) s =
      { s with
        crc := crcUpdate Config.crcInit data
        csum := compute data
        outputs := s.outputs ++ List.replicate (data.length + 2) (.response .ok) } := by
  rw [computeCommands, takeAll_present_cons, present_append, takeAll_append, takeAll_present_crcbytes,
    takeAll_present_cons]
  have houts : (s.outputs ++ [Output.response .ok]) ++ List.replicate data.length (.response .ok) ++ [.response .ok] =
      s.outputs ++ List.replicate (data.length + 2) (.response .ok) := by
    rw [List.replicate_succ, List.replicate_succ', List.append_assoc, List.append_assoc, List.singleton_append]
  rw [← houts]
  rfl

theorem length_computeCommands (data : List Byte) : (computeCommands data).length = data.length + 2 := by
  simp [computeCommands]

/-- The stream of COMPUTE run from any state (R92). -/
theorem runsTo_present_computeCommands {s : State} {data : List Byte} {rest : List HostAction}
    (h : s.pending = present (computeCommands data) ++ rest) :
    runsTo (data.length + 2) s
      { s with
        crc := crcUpdate Config.crcInit data
        csum := compute data
        pending := rest
        outputs := s.outputs ++ List.replicate (data.length + 2) (.response .ok) } := by
  have run := runsTo_takeAll _ s rest h
  rw [takeAll_present_computeCommands, present, List.length_map, length_computeCommands] at run
  exact run

/-- RECHECK runs the stream over the packet's first twelve bytes (R75). -/
theorem runsTo_present_recheckCommands {s : State} {rest : List HostAction}
    (h : s.pending = present (recheckCommands s.pkt) ++ rest) :
    ∃ t, runsTo 14 s t ∧ t.csum = compute (s.pkt.readBytes 0 12) ∧ t.pkt = s.pkt := by
  have run := runsTo_present_computeCommands h
  rw [length_readBytes] at run
  exact ⟨_, run, rfl, rfl⟩

theorem recheckCommands_eq (pkt : Memory) :
    recheckCommands pkt = [.crcinit] ++ (List.range 12).map (fun i => .crcbyte (pkt.readAt i)) ++ [.crcfin] := by
  simp [recheckCommands, computeCommands, readBytes_eq_map, Function.comp_def]

/-! ### The assembler -/

theorem toNat_ofNat_of_lt {w n : Nat} (h : n < 2 ^ w) : (BitVec.ofNat w n).toNat = n :=
  (BitVec.toNat_ofNat n w).trans (Nat.mod_eq_of_lt h)

section
variable {pkt : Memory}

theorem assemble_of_not_wellFormed {a : AsmCommand} (h : ¬ a.wellFormed = true) : assemble pkt a = none := if_neg h

theorem assemble_crcbyte {n : Nat} (h : n ≤ 0xFF) : assemble pkt (.crcbyte n) = some [.crcbyte (BitVec.ofNat 8 n)] :=
  if_pos (decide_eq_true h)

theorem wellFormed_encode_iff (seq payload c : Nat) :
    (AsmCommand.encode seq payload c).wellFormed = true ↔ seq < 2 ^ 32 ∧ payload < 2 ^ 64 ∧ c ≤ 1 := by
  simp [AsmCommand.wellFormed, and_assoc]

theorem assemble_encode {seq payload c : Nat} (h : seq < 2 ^ 32 ∧ payload < 2 ^ 64 ∧ c ≤ 1) :
    assemble pkt (.encode seq payload c) = some [.encode (BitVec.ofNat 32 seq) (BitVec.ofNat 64 payload) (c == 1)] :=
  if_pos ((wellFormed_encode_iff seq payload c).2 h)

theorem assemble_compute (data : List Byte) :
    assemble pkt (.compute (data.map BitVec.toNat)) = some (computeCommands data) := by
  have hwf : (AsmCommand.compute (data.map BitVec.toNat)).wellFormed = true := by
    simp only [AsmCommand.wellFormed, List.all_map, List.all_eq_true]
    intro b _
    exact decide_eq_true (Nat.le_of_lt_succ b.isLt)
  have hdata : (data.map BitVec.toNat).map (BitVec.ofNat 8) = data := by simp [Function.comp_def]
  rw [assemble, if_pos hwf, hdata]

end

end Sys2Proof.Machine

open Sys2Proof Sys2Proof.Machine

/-- Settles O55: RECHECK is a COMPUTE over the packet's first twelve bytes, which after ENCODE are the checksum input. -/
theorem recheckTellsCorruptedFromSound : Obligations.RecheckTellsCorruptedFromSound := by
  refine ⟨recheckCommands_eq, fun s rest hp => runsTo_present_recheckCommands hp, ?_⟩
  intro seq payload c s t rest hexec hp
  obtain ⟨u, hrun, hcsum, hpkt⟩ := runsTo_present_recheckCommands hp
  refine ⟨u, hrun, hpkt, ?_⟩
  have hpacket : t.pkt = Memory.ofBytes (encodePacket seq payload c) := by rw [exec_next_iff.1 hexec]; rfl
  rw [hpacket, readBytes_inputs_ofBytes_encodePacket] at hcsum
  rw [hpkt, hpacket, memRead_checksum_ofBytes_encodePacket, hcsum]
  rfl

/-- Settles O20: the encoder's equation for each command, and the example's value. -/
theorem encodedFramesOfTheFourCommands : Obligations.EncodedFramesOfTheFourCommands :=
  ⟨rfl, fun _ => rfl, rfl, fun _ _ _ => rfl, by decide⟩

/-- Settles O23: the model's decoder evaluated on each word and frame. -/
theorem writtenOutFramesDecode : Obligations.WrittenOutFramesDecode := by
  unfold Obligations.WrittenOutFramesDecode
  decide

/-- Settles O38: taking the frame leaves the rest of the actions pending. -/
theorem stepExecutesTheDecodedCommand : Obligations.StepExecutesTheDecodedCommand :=
  fun _ _ _ _ hp hd => step_frame hp hd

/-- Settles O44: the placed frame stands first, and taking it gives back the state it was placed in. -/
theorem placedWordRunsNext : Obligations.PlacedWordRunsNext := by
  intro s nbits w i h
  obtain ⟨f, hf, hd⟩ := exists_frame_of_decodeTableWord h
  rw [withFetchWord_of_frame hf, step_frame rfl hd]
  rfl

/-- Settles O57: the range check decides, and in its range a number is the value of its word. -/
theorem assemblerRejectsWhatItCannotCarry : Obligations.AssemblerRejectsWhatItCannotCarry := by
  refine ⟨fun pkt n => ⟨fun hn => ?_, fun hn => ?_⟩, fun pkt seq payload c => ⟨fun hseq hpay hc => ?_, fun h => ?_⟩⟩
  · exact ⟨BitVec.ofNat 8 n, toNat_ofNat_of_lt (Nat.lt_succ_of_le hn), assemble_crcbyte hn⟩
  · exact assemble_of_not_wellFormed (by simpa [AsmCommand.wellFormed] using hn)
  · exact ⟨BitVec.ofNat 32 seq, BitVec.ofNat 64 payload, toNat_ofNat_of_lt hseq, toNat_ofNat_of_lt hpay,
      assemble_encode ⟨hseq, hpay, hc⟩⟩
  · exact assemble_of_not_wellFormed (mt (wellFormed_encode_iff seq payload c).1 h)

/-- Settles O58: every byte is in CRCBYTE's range and is its own number's word. -/
theorem computeExpandsToItsStream : Obligations.ComputeExpandsToItsStream :=
  fun _ data => ⟨assemble_compute data, length_computeCommands data⟩
end

section
/-! The bit step and the byte step of the Checksum Engine: the bit step is linear, so the byte step is a shift and one
table entry (spec 40_checksum_engine.md R80 to R82, R94, R95). -/

namespace Sys2Proof.Machine

/-! ### The bit step -/

theorem crcBit_of_low_bit {r : Word} (h : r.getLsbD 0 = true) : crcBit r = (r >>> 1) ^^^ Config.crcPoly := if_pos h

theorem crcBit_of_not_low_bit {r : Word} (h : r.getLsbD 0 = false) : crcBit r = r >>> 1 :=
  if_neg (ne_true_of_eq_false h)

/-- What the bit that is shifted out adds to the register. -/
def crcFeedback (c : Bool) : Word := if c then Config.crcPoly else 0

theorem crcBit_eq_xor_feedback (r : Word) : crcBit r = (r >>> 1) ^^^ crcFeedback (r.getLsbD 0) := by
  cases h : r.getLsbD 0 with
  | true => exact crcBit_of_low_bit h
  | false => rw [crcBit_of_not_low_bit h]; exact BitVec.xor_zero.symm

/-- R80: the feedback as a mask. -/
theorem crcFeedback_eq_and (c : Bool) :
    crcFeedback c = 0xEDB88320#32 &&& (if c then 0xFFFFFFFF#32 else 0x00000000#32) := by
  cases c <;> decide

theorem crcFeedback_xor (c d : Bool) : crcFeedback (c ^^ d) = crcFeedback c ^^^ crcFeedback d := by
  cases c <;> cases d <;> decide

/-- The constant has bit 31 set, so that bit of the feedback tells which bit was shifted out. -/
theorem crcFeedback_top_bit (c : Bool) : (crcFeedback c).getLsbD 31 = c := by
  cases c <;> decide

/-- The shift is logical: a zero enters at the top. -/
theorem shiftRight_one_top_bit (r : Word) : (r >>> 1).getLsbD 31 = false := by simp

theorem crcBit_top_bit (r : Word) : (crcBit r).getLsbD 31 = r.getLsbD 0 := by
  rw [crcBit_eq_xor_feedback, BitVec.getLsbD_xor, shiftRight_one_top_bit, crcFeedback_top_bit, Bool.false_xor]

theorem crcBit_xor (r r' : Word) : crcBit (r ^^^ r') = crcBit r ^^^ crcBit r' := by
  simp only [crcBit_eq_xor_feedback, BitVec.getLsbD_xor, crcFeedback_xor, BitVec.ushiftRight_xor_distrib]
  ac_rfl

/-! ### Bit steps in a row -/

theorem crcBits_xor (n : Nat) (r r' : Word) : crcBits n (r ^^^ r') = crcBits n r ^^^ crcBits n r' := by
  induction n generalizing r r' with
  | zero => rfl
  | succ n ih => simp only [crcBits, crcBit_xor, ih]

/-- Zeros at the bottom are shifted out and feed nothing back. -/
theorem crcBits_of_low_zeros {n : Nat} {r : Word} (h : ∀ i < n, r.getLsbD i = false) : crcBits n r = r >>> n := by
  induction n generalizing r with
  | zero => rfl
  | succ n ih =>
    have shifted : ∀ i < n, (r >>> 1).getLsbD i = false := by
      intro i hi
      rw [BitVec.getLsbD_ushiftRight]
      exact h (1 + i) (by omega)
    rw [crcBits, crcBit_of_not_low_bit (h 0 (by omega)), ih shifted, ← BitVec.shiftRight_add, Nat.add_comm]

/-! ### The byte step -/

@[simp] theorem crcXorByte_zero (r : Word) : crcXorByte r 0 = r := BitVec.xor_zero

/-- R94 (a): the byte enters through the first exclusive-OR only. -/
theorem crcByte_eq_crcByte_zero (r : Word) (b : Byte) : crcByte r b = crcByte (r ^^^ b.setWidth 32) 0 := by
  rw [crcByte, crcByte, crcXorByte_zero, crcXorByte]

theorem extractLsb'_crcXorByte_high (r : Word) (b : Byte) :
    (crcXorByte r b).extractLsb' 8 24 = r.extractLsb' 8 24 := by
  refine BitVec.eq_of_getLsbD_eq fun i hi => ?_
  simp [crcXorByte]

theorem extractLsb'_crcXorByte_low (r : Word) (b : Byte) :
    (crcXorByte r b).extractLsb' 0 8 = r.extractLsb' 0 8 ^^^ b := by
  refine BitVec.eq_of_getLsbD_eq fun i hi => ?_
  have hi' : i < 32 := by omega
  simp [crcXorByte, hi, hi']

/-- The register above its low byte, and the low byte met with `b`, are disjoint parts. -/
theorem crcXorByte_eq_parts (r : Word) (b : Byte) :
    crcXorByte r b = ((r >>> 8) <<< 8) ^^^ crcXorByte 0 (r.setWidth 8 ^^^ b) := by
  refine BitVec.eq_of_getLsbD_eq fun i hi => ?_
  by_cases h : i < 8
  · simp [crcXorByte, h, hi]
  · have position : 8 + (i - 8) = i := by omega
    simp [crcXorByte, h, hi, position]

/-- R95: the low byte decides one entry of the table of bytes from the zero register, and the rest is shifted. -/
theorem crcByte_eq_shift_xor_entry (r : Word) (b : Byte) :
    crcByte r b = (r >>> 8) ^^^ crcByte 0 (r.setWidth 8 ^^^ b) := by
  have low_zeros : ∀ i < 8, ((r >>> 8) <<< 8).getLsbD i = false := by
    intro i hi
    simp [hi]
  have high : crcBits 8 ((r >>> 8) <<< 8) = r >>> 8 := by
    rw [crcBits_of_low_zeros low_zeros]
    refine BitVec.eq_of_getLsbD_eq fun i _ => ?_
    simpa using BitVec.lt_of_getLsbD
  rw [crcByte, crcXorByte_eq_parts, crcBits_xor, Config.bitsPerByte, high]
  rfl

/-! ### The sequence update and the final step -/

/-- R83: the sequence update is a left fold, the first byte first. -/
theorem crcUpdate_eq_foldl (r : Word) (data : List Byte) : crcUpdate r data = data.foldl crcByte r := by
  induction data generalizing r with
  | nil => rfl
  | cons b bs ih => exact ih (crcByte r b)

theorem crcUpdate_append (r : Word) (a b : List Byte) : crcUpdate r (a ++ b) = crcUpdate (crcUpdate r a) b := by
  simp only [crcUpdate_eq_foldl, List.foldl_append]

theorem crcByte_zero_zero : crcByte 0 0 = 0 := by decide

theorem crcUpdate_zero_replicate_zero (n : Nat) : crcUpdate 0 (List.replicate n 0) = 0 := by
  induction n with
  | zero => rfl
  | succ n ih => rw [List.replicate_succ, crcUpdate, crcByte_zero_zero, ih]

/-- R94 (c): the four bytes that take the initial register to zero. -/
theorem crcUpdate_crcInit_four_ones : crcUpdate 0xFFFFFFFF [0xFF, 0xFF, 0xFF, 0xFF] = 0 := by decide +kernel

theorem crcFinal_crcFinal (r : Word) : crcFinal (crcFinal r) = r := by
  rw [crcFinal_eq_not, crcFinal_eq_not, BitVec.not_not]

end Sys2Proof.Machine

open Sys2Proof Sys2Proof.Machine

/-- Settles O4: the recursion is the definition, the left fold by induction on the bytes, the order by its example. -/
theorem updateTakesBytesInInputOrder : Obligations.UpdateTakesBytesInInputOrder :=
  ⟨fun _ => rfl, fun _ _ _ => rfl, crcUpdate_eq_foldl, by decide +kernel, by decide +kernel⟩

/-- Settles O5: a left fold over a concatenation is two left folds. -/
theorem updateSplitsOverConcatenation : Obligations.UpdateSplitsOverConcatenation :=
  crcUpdate_append

/-- Settles O9: after the four 0xFF bytes the register is zero, and zero bytes keep it there by induction. -/
theorem consequencesForTestDesign : Obligations.ConsequencesForTestDesign := by
  refine ⟨crcByte_eq_crcByte_zero, by decide, crcByte_zero_zero, by decide, by decide, by decide, fun n => ?_, ?_,
    crcFinal_crcFinal⟩
  · rw [crcUpdate_append, crcUpdate_crcInit_four_ones]
    exact crcUpdate_zero_replicate_zero n
  · exact congrArg crcFinal crcUpdate_crcInit_four_ones

/-- Settles O10: the byte step is the table's loop body, since bit steps are linear and shift out zeros unchanged. -/
theorem tableDrivenEngineComputesTheSame : Obligations.TableDrivenEngineComputesTheSame := by
  intro table htable data
  have body : (fun (r : Word) (b : Byte) => (r >>> 8) ^^^ table (r.setWidth 8 ^^^ b)) = crcByte := by
    funext r b
    rw [htable, ← crcByte_eq_shift_xor_entry]
  rw [body, ← crcUpdate_eq_foldl, ← crcFinal_eq_not]
  rfl

/-- Settles O1: bit 31 of the shifted register is 0, so bit 31 of the result is that of the feedback. -/
theorem bitStepShiftsRightAndXorsWhenLowBitWasOne : Obligations.BitStepShiftsRightAndXorsWhenLowBitWasOne := by
  refine fun r => ⟨crcBit_of_low_bit, crcBit_of_not_low_bit, shiftRight_one_top_bit r, crcBit_top_bit r, ?_⟩
  rw [crcBit_eq_xor_feedback, crcFeedback_eq_and]

/-- Settles O2: the byte is zero-extended, so it has no bit above bit 7. -/
theorem byteXorTouchesTheLowByteOnly : Obligations.ByteXorTouchesTheLowByteOnly :=
  fun r b => ⟨rfl, extractLsb'_crcXorByte_high r b, extractLsb'_crcXorByte_low r b⟩

/-- Settles O3: the count of bit steps is the constant eight. -/
theorem byteStepIsOneXorThenEightBitSteps : Obligations.ByteStepIsOneXorThenEightBitSteps :=
  fun _ _ => rfl

/-- Settles O6: an exclusive-OR with all ones is the complement; the examples by evaluation. -/
theorem finalStepComplements : Obligations.FinalStepComplements :=
  ⟨fun r => ⟨crcFinal_eq_not r, rfl⟩, by decide, by decide, by decide⟩

/-- Settles O7: the definition, and the nine-byte example evaluated on the model. -/
theorem computeGivesTheCheckValue : Obligations.ComputeGivesTheCheckValue :=
  ⟨fun _ => rfl, by decide +kernel, by decide +kernel⟩

/-- Settles O8: the complement of the initial register. -/
theorem computeOfNoBytesIsZero : Obligations.ComputeOfNoBytesIsZero := by
  unfold Obligations.ComputeOfNoBytesIsZero
  decide
end

section
/-! The commands of the Checksum Engine: their frames of the wrong length, their one next state, and the stream (spec
40_checksum_engine.md R89 to R92). -/

namespace Sys2Proof

theorem operandsN_eq_none {args : List Byte} (h : args ≠ []) : operandsN args = none :=
  Option.eq_none_iff_forall_ne_some.2 fun _ hsome => h (operandsN_eq_some_iff.1 hsome)

theorem operandsB_eq_none {args : List Byte} (h : args.length ≠ 1) : operandsB args = none :=
  Option.eq_none_iff_forall_ne_some.2 fun _ hsome => h (congrArg List.length (operandsB_eq_some_iff.1 hsome))

theorem decode_crcinit_badLength {args : List Byte} (h : args ≠ []) :
    decode ⟨opCrcinit, args⟩ = .error .badLength := by
  simp [decode, operandsN_eq_none h]

theorem decode_crcbyte_badLength {args : List Byte} (h : args.length ≠ 1) :
    decode ⟨opCrcbyte, args⟩ = .error .badLength := by
  simp [decode, operandsB_eq_none h, opCrcbyte, opCrcinit]

theorem decode_crcfin_badLength {args : List Byte} (h : args ≠ []) :
    decode ⟨opCrcfin, args⟩ = .error .badLength := by
  simp [decode, operandsN_eq_none h, opCrcfin, opCrcbyte, opCrcinit]

end Sys2Proof

namespace Sys2Proof.Machine

/-- CRCFIN writes the complement of CRC into CSUM (R91). -/
theorem exec_crcfin (s : State) :
    exec .crcfin s = .next { s with csum := ~~~s.crc, outputs := s.outputs ++ [.response .ok] } := by
  rw [exec_eq, ← crcFinal_eq_not]
  rfl

/-- What is said of the states after the first and after both of two commands is said of the commands' effects. -/
theorem exists_exec_exec {i j : Instr} {s : State} {p : State → State → Prop}
    (h : p (commandEffect i s) (commandEffect j (commandEffect i s))) :
    ∃ t u, exec i s = .next t ∧ exec j t = .next u ∧ p t u :=
  ⟨_, _, exec_eq i s, exec_eq j _, h⟩

end Sys2Proof.Machine

open Sys2Proof Sys2Proof.Machine

/-- Settles O51: the run of COMPUTE's expansion from any state. -/
theorem streamComputesTheChecksum : Obligations.StreamComputesTheChecksum :=
  fun _ _ _ hp => ⟨_, runsTo_present_computeCommands hp, rfl, rfl, rfl, rfl, rfl⟩

/-- Settles O24: CRCINIT's one next state does not depend on the old CRC, and CRCFIN complements what it loads. -/
theorem crcinitLoadsAllOnes : Obligations.CrcinitLoadsAllOnes :=
  ⟨exec_eq .crcinit, decode_encode .crcinit, fun _ => decode_crcinit_badLength,
    fun _ => exists_exec_exec rfl, fun _ => exists_exec_exec rfl⟩

/-- Settles O25: CRCBYTE's one next state, its frames of the wrong length, and the corner values by evaluation. -/
theorem crcbyteAdvancesTheRegister : Obligations.CrcbyteAdvancesTheRegister :=
  ⟨fun imm8 => exec_eq (.crcbyte imm8), fun imm8 => decode_encode (.crcbyte imm8), fun _ => decode_crcbyte_badLength,
    by decide, crcByte_zero_zero, by decide⟩

/-- Settles O26: CRCFIN reads CRC only, which CRCINIT sets to all ones and ENCODE to the running value of its input
before the corruption. -/
theorem crcfinWritesTheComplement : Obligations.CrcfinWritesTheComplement :=
  ⟨exec_crcfin, decode_encode .crcfin, fun _ => decode_crcfin_badLength, fun _ => exists_exec_exec rfl,
    fun _ => exists_exec_exec computeOfNoBytesIsZero, fun _ _ _ _ => exists_exec_exec rfl⟩
end

section
/-! The serializers bit by bit and as inverses, and loads of a field whose bytes are known (spec 41_packet_encoder.md
R100 to R102). -/

namespace Sys2Proof

open Sys2Proof.Machine (getD_beBytes)

/-! ### A byte of a value as a shift and a mask -/

/-- R100: the low byte of a shifted value, kept by the mask 0xFF. -/
theorem setWidth_shiftRight_and_mask {w : Nat} (v : BitVec w) (k : Nat) (mask : BitVec w)
    (hmask : mask.setWidth 8 = BitVec.allOnes 8) : ((v >>> k) &&& mask).setWidth 8 = v.extractLsb' k 8 := by
  rw [BitVec.setWidth_and, hmask, BitVec.and_allOnes]
  exact BitVec.eq_of_getLsbD_eq fun i hi => by simp [hi]

theorem getD_be32 (v : Word) {i : Nat} (hi : i < 4) :
    (be32 v).getD i 0 = ((v >>> (8 * (3 - i))) &&& 0xFF).setWidth 8 := by
  rw [setWidth_shiftRight_and_mask v _ 0xFF (by decide)]
  exact getD_beBytes (n := 4) v hi 0

theorem getD_be64 (v : DWord) {i : Nat} (hi : i < 8) :
    (be64 v).getD i 0 = ((v >>> (8 * (7 - i))) &&& 0xFF).setWidth 8 := by
  rw [setWidth_shiftRight_and_mask v _ 0xFF (by decide)]
  exact getD_beBytes (n := 8) v hi 0

/-! ### The inverses -/

/-- A byte put below a value: the value moves up by eight bits. -/
theorem toNat_append_byte {w : Nat} (x : BitVec w) (b : Byte) : (x ++ b).toNat = x.toNat * 256 + b.toNat := by
  rw [BitVec.toNat_append, ← Nat.shiftLeft_add_eq_or_of_lt b.isLt, Nat.shiftLeft_eq]

theorem unbe32_eq_append (a b c d : Byte) : unbe32 a b c d = a ++ b ++ c ++ d := by
  refine BitVec.eq_of_toNat_eq ?_
  simp only [toNat_unbe32, toNat_append_byte, beNat, List.length_cons, List.length_nil]
  ring

theorem unbe64_eq_append (a b c d e f g h : Byte) :
    unbe64 a b c d e f g h = a ++ b ++ c ++ d ++ e ++ f ++ g ++ h := by
  refine BitVec.eq_of_toNat_eq ?_
  simp only [toNat_unbe64, toNat_append_byte, beNat, List.length_cons, List.length_nil]
  ring

theorem be32_unbe32 (a b c d : Byte) : be32 (unbe32 a b c d) = [a, b, c, d] := (be32_eq_iff _ a b c d).2 rfl

theorem be64_unbe64 (a b c d e f g h : Byte) :
    be64 (unbe64 a b c d e f g h) = [a, b, c, d, e, f, g, h] :=
  (be64_eq_iff _ a b c d e f g h).2 rfl

theorem exists_be32_eq (v : Word) : ∃ a b c d : Byte, be32 v = [a, b, c, d] ∧ unbe32 a b c d = v :=
  ⟨_, _, _, _, rfl, (be32_eq_iff v _ _ _ _).1 rfl⟩

theorem exists_be64_eq (v : DWord) :
    ∃ a b c d e f g h : Byte, be64 v = [a, b, c, d, e, f, g, h] ∧ unbe64 a b c d e f g h = v :=
  ⟨_, _, _, _, _, _, _, _, rfl, (be64_eq_iff v _ _ _ _ _ _ _ _).1 rfl⟩

/-- The bytes of an exclusive-OR are the exclusive-ORs of the bytes. -/
theorem beBytes_xor (n : Nat) (v w : BitVec (8 * n)) :
    beBytes n (v ^^^ w) = List.zipWith (· ^^^ ·) (beBytes n v) (beBytes n w) := by
  simp only [beBytes, List.zipWith_map, List.zipWith_self, BitVec.extractLsb'_xor]

end Sys2Proof

namespace Sys2Proof.Machine

/-- A load from a field that holds a value's bytes gives the value. -/
theorem memRead_eq_of_readBytes {m : Memory} {off n : Nat} {v : BitVec (8 * n)} {h : off + n ≤ Config.pktLen}
    (hbytes : m.readBytes off n = beBytes n v) : memRead m off n h = v := by
  rw [memRead, hbytes, beNat_beBytes, BitVec.ofNat_toNat, BitVec.setWidth_eq]

end Sys2Proof.Machine

open Sys2Proof Sys2Proof.Machine

/-- Settles O12: the byte lists and the values determine each other, and MemWrite and MemRead go through them. -/
theorem serializersLoseNothing : Obligations.SerializersLoseNothing :=
  ⟨fun a b c d => ⟨unbe32_eq_append a b c d, be32_unbe32 a b c d⟩, exists_be32_eq,
    fun a b c d e f g h => ⟨unbe64_eq_append a b c d e f g h, be64_unbe64 a b c d e f g h⟩, exists_be64_eq,
    fun m off h v => readBytes_memWrite m off 4 v h, fun m off h v => readBytes_memWrite m off 8 v h,
    fun _ _ _ => rfl⟩

/-- Settles O11: the byte lists are the definition's; each byte is also a shift under the mask 0xFF. -/
theorem serializersPutTheMostSignificantByteFirst : Obligations.SerializersPutTheMostSignificantByteFirst :=
  ⟨fun _ => rfl, fun _ => rfl, fun v _ hi => getD_be32 v hi, fun v _ hi => getD_be64 v hi⟩
end

section
/-! The packet's parts, and its checksum field with and without the corruption (spec 41_packet_encoder.md R110, R113,
R114). -/

namespace Sys2Proof.Machine

/-! ### The corruption -/

/-- R107 as one exclusive-OR, with zero when the flag is not set. -/
theorem corrupt_eq_xor (c : Bool) (k : Word) :
    corrupt c k = k ^^^ (if c then 0xDEADBEEF#32 else 0x00000000#32) := by
  cases c with
  | true => rfl
  | false => exact BitVec.xor_zero.symm

theorem corrupt_true (k : Word) : corrupt true k = k ^^^ 0xDEADBEEF#32 := rfl

/-- R114: the constant's bytes meet the bytes of the checksum one by one. -/
theorem be32_corrupt_true {k : Word} {k0 k1 k2 k3 : Byte} (hk : be32 k = [k0, k1, k2, k3]) :
    be32 (corrupt true k) = [k0 ^^^ 0xDE, k1 ^^^ 0xAD, k2 ^^^ 0xBE, k3 ^^^ 0xEF] := by
  have constant : be32 0xDEADBEEF = [0xDE, 0xAD, 0xBE, 0xEF] := by decide
  calc be32 (corrupt true k)
      = List.zipWith (· ^^^ ·) (be32 k) (be32 0xDEADBEEF) := beBytes_xor 4 k 0xDEADBEEF
    _ = [k0 ^^^ 0xDE, k1 ^^^ 0xAD, k2 ^^^ 0xBE, k3 ^^^ 0xEF] := by rw [hk, constant]; rfl

theorem corrupt_true_corrupt_true (k : Word) : corrupt true (corrupt true k) = k := by
  rw [corrupt_true, corrupt_true, BitVec.xor_assoc, BitVec.xor_self, BitVec.xor_zero]

/-- The constant is not zero, so the corruption always shows. -/
theorem corrupt_true_ne (k : Word) : corrupt true k ≠ k := by
  intro h
  have zero : 0xDEADBEEF#32 = 0#32 := (BitVec.xor_right_inj k).1 (h.trans BitVec.xor_zero.symm)
  exact absurd zero (by decide)

/-! ### The packet's parts -/

section
variable (seq : Word) (payload : DWord) (c : Bool)

@[simp] theorem take_encodePacket : (encodePacket seq payload c).take 12 = checksumInput seq payload :=
  List.take_left' (length_checksumInput seq payload)

@[simp] theorem drop_encodePacket :
    (encodePacket seq payload c).drop 12 = be32 (corrupt c (compute (checksumInput seq payload))) :=
  List.drop_left' (length_checksumInput seq payload)

theorem encodePacket_eq :
    encodePacket seq payload c = be32 seq ++ be64 payload ++
      be32 (compute (be32 seq ++ be64 payload) ^^^ (if c then 0xDEADBEEF#32 else 0x00000000#32)) := by
  rw [← corrupt_eq_xor]
  rfl

end

/-- R110: the worked example without corruption, the golden packet of R115. -/
theorem encodePacket_golden : encodePacket 0x00000001 0x1234567890ABCDEF false =
    [0x00, 0x00, 0x00, 0x01, 0x12, 0x34, 0x56, 0x78, 0x90, 0xAB, 0xCD, 0xEF, 0x3B, 0xE5, 0x20, 0x10] := by
  decide +kernel

end Sys2Proof.Machine

open Sys2Proof Sys2Proof.Machine

/-- Settles O13: the corruption as an exclusive-OR in both cases, and the example evaluated on the model. -/
theorem packetIsInputThenChecksum : Obligations.PacketIsInputThenChecksum :=
  ⟨fun s p c => ⟨encodePacket_eq s p c, length_encodePacket s p c⟩, encodePacket_golden, by decide +kernel⟩

/-- Settles O14: the last four bytes serialize the checksum of the first twelve. -/
theorem uncorruptedPacketVerifies : Obligations.UncorruptedPacketVerifies := by
  intro s p
  rw [drop_encodePacket, take_encodePacket]
  exact exists_be32_eq (compute (checksumInput s p))

/-- Settles O15: the corrupted field serializes the true checksum under the constant, which is not zero. -/
theorem corruptedPacketNeverVerifies : Obligations.CorruptedPacketNeverVerifies := by
  intro s p
  obtain ⟨k0, k1, k2, k3, hbytes, hword⟩ := exists_be32_eq (compute (checksumInput s p))
  have hcorrupt := be32_corrupt_true hbytes
  have hfield := (be32_eq_iff _ _ _ _ _).1 hcorrupt
  refine ⟨k0, k1, k2, k3, ?_, ?_, ?_, ?_, ?_, ?_⟩
  · rw [drop_encodePacket]; exact hbytes
  · rw [drop_encodePacket]; exact hcorrupt
  · rw [take_encodePacket, take_encodePacket]
  · rw [hfield, hword, corrupt_true]
  · rw [hfield, hword]; exact corrupt_true_corrupt_true _
  · rw [hfield, take_encodePacket]; exact corrupt_true_ne _
end

section
/-! The command ENCODE: its illegal frames, the fields it leaves in PKT, and PKT as its three writes over the old
contents (spec 41_packet_encoder.md R111, R115 to R117). -/

namespace Sys2Proof

/-! ### Illegal frames -/

theorem operandsE_eq_none {args : List Byte} (h : args.length ≠ 13) : operandsE args = none :=
  Option.eq_none_iff_forall_ne_some.2 fun _ hsome => h (length_of_operandsE hsome)

theorem decode_encode_badLength {args : List Byte} (h : args.length ≠ 13) :
    decode ⟨opEncode, args⟩ = .error .badLength := by
  simp [decode, operandsE_eq_none h, opEncode, opCrcinit, opCrcbyte, opCrcfin]

theorem decode_encode_badReserved {flags : Byte} {args : List Byte} (hlen : args.length = 12)
    (hflags : flags &&& 0xFE ≠ 0) : decode ⟨opEncode, flags :: args⟩ = .error .badReserved := by
  obtain ⟨seq, payload, rfl⟩ := exists_be32_append_be64 hlen
  have hreserved : reservedClear flags = false := beq_eq_false_iff_ne.2 hflags
  rw [decode_of_operandsE (operandsE_fields flags seq payload), hreserved]
  rfl

end Sys2Proof

namespace Sys2Proof.Machine

/-! ### The fields of the packet -/

section
variable (seq : Word) (payload : DWord) (c : Bool)

theorem readBytes_seq_ofBytes_encodePacket :
    (Memory.ofBytes (encodePacket seq payload c)).readBytes 0 4 = be32 seq :=
  readBytes_ofBytes (encodePacket seq payload c) 0 4 (by simp)

theorem readBytes_payload_ofBytes_encodePacket :
    (Memory.ofBytes (encodePacket seq payload c)).readBytes 4 8 = be64 payload :=
  readBytes_ofBytes (encodePacket seq payload c) 4 8 (by simp)

/-- In canonical form sixteen bytes stored from offset 0 on replace the whole space (R30). -/
theorem writeBytes_eq_ofBytes {m : Memory} (hm : m.wf) {bs : List Byte} (hlen : bs.length = Config.pktLen) :
    m.writeBytes 0 bs = Memory.ofBytes bs := by
  refine eq_of_wf_of_bytes (writeBytes_wf bs m 0 hm (by omega)) (ofBytes_wf bs (by omega)) fun off => ?_
  have inside : 0 ≤ off.toNat ∧ off.toNat < 0 + bs.length := ⟨Nat.zero_le _, by simpa [hlen] using off.isLt⟩
  rw [Memory.ofBytes, readAt_writeBytes, readAt_writeBytes, if_pos inside, if_pos inside]

/-- The packet of ENCODE is what its three MemWrites leave over any old contents in canonical form. -/
theorem ofBytes_encodePacket_eq_writes_over {m : Memory} (hm : m.wf) :
    Memory.ofBytes (encodePacket seq payload c) =
      storeChecksum (storeInputs m seq payload) (corrupt c (compute (checksumInput seq payload))) := by
  rw [storeChecksum_storeInputs]
  exact (writeBytes_eq_ofBytes hm (length_encodePacket seq payload c)).symm

end

/-- The three fields of R52 cover the packet space. -/
theorem pktLen_le_of_outside_fields {a : Nat} (hseq : ¬(Config.seqOff ≤ a ∧ a < Config.seqOff + Config.seqLen))
    (hpay : ¬(Config.payOff ≤ a ∧ a < Config.payOff + Config.payLen))
    (hsum : ¬(Config.sumOff ≤ a ∧ a < Config.sumOff + Config.sumLen)) : Config.pktLen ≤ a := by
  simp only [Config.seqOff, Config.seqLen, Config.payOff, Config.payLen, Config.sumOff, Config.sumLen] at hseq hpay hsum
  rw [Config.pktLen]
  omega

/-! ### The state after ENCODE -/

section
variable (seq : Word) (payload : DWord) (c : Bool) (s : State)

theorem commandEffect_encode_pkt :
    (commandEffect (.encode seq payload c) s).pkt = Memory.ofBytes (encodePacket seq payload c) := rfl

theorem commandEffect_encode_crc :
    (commandEffect (.encode seq payload c) s).crc = crcUpdate Config.crcInit (checksumInput seq payload) := rfl

theorem commandEffect_encode_csum :
    (commandEffect (.encode seq payload c) s).csum = corrupt c (compute (checksumInput seq payload)) := rfl

/-- R116: nothing of the old state is in CRC, CSUM or PKT after ENCODE. -/
theorem commandEffect_encode_block (s' : State) :
    (commandEffect (.encode seq payload c) s).block = (commandEffect (.encode seq payload c) s').block := rfl

end

end Sys2Proof.Machine

open Sys2Proof Sys2Proof.Machine

/-- Settles O27: PKT holds the packet's bytes, so its fields load the operands and the checksum; a frame of ENCODE is
illegal by its length or else by its reserved bits. -/
theorem encodeBuildsThePacket : Obligations.EncodeBuildsThePacket := by
  refine ⟨fun seq payload c s => ⟨_, exec_eq (.encode seq payload c) s, ?_⟩,
    fun seq payload c => decode_encode (.encode seq payload c), fun _ => decode_encode_badLength,
    fun _ _ => decode_encode_badReserved⟩
  exact ⟨commandEffect_encode_wire seq payload c s, commandEffect_encode_crc seq payload c s,
    commandEffect_encode_csum seq payload c s,
    memRead_eq_of_readBytes (readBytes_seq_ofBytes_encodePacket seq payload c),
    memRead_eq_of_readBytes (readBytes_payload_ofBytes_encodePacket seq payload c),
    memRead_checksum_ofBytes_encodePacket seq payload c, commandEffect_pending _ s, commandEffect_outputs _ s⟩

/-- Settles O28: sixteen bytes replace the whole space, and the engine reads back twelve bytes just written. -/
theorem encodeEqualsTheThreeWritesOverTheOldPacket : Obligations.EncodeEqualsTheThreeWritesOverTheOldPacket :=
  fun seq payload c s hwf => ⟨_, exec_eq (.encode seq payload c) s,
    ofBytes_encodePacket_eq_writes_over seq payload c hwf, (runOverInputs_storeInputs s.pkt seq payload).symm⟩

/-- Settles O30: the golden packet by evaluation; the boundary fields read back the bytes of their operands. -/
theorem fieldPlacementAndBoundaryValues : Obligations.FieldPlacementAndBoundaryValues := by
  have all_zero_payload : be64 0x0000000000000000 = List.replicate 8 0x00 := by decide
  have all_one_payload : be64 0xFFFFFFFFFFFFFFFF = List.replicate 8 0xFF := by decide
  have all_zero_seq : be32 0x00000000 = List.replicate 4 0x00 := by decide
  have all_one_seq : be32 0xFFFFFFFF = List.replicate 4 0xFF := by decide
  refine ⟨fun s => ⟨_, exec_eq _ s, (commandEffect_encode_wire _ _ _ s).trans encodePacket_golden⟩,
    fun seq c s => ⟨_, exec_eq _ s, ?_⟩, fun seq c s => ⟨_, exec_eq _ s, ?_⟩,
    fun payload c s => ⟨_, exec_eq _ s, ?_⟩, fun payload c s => ⟨_, exec_eq _ s, ?_⟩⟩
  · exact (readBytes_payload_ofBytes_encodePacket seq _ c).trans all_zero_payload
  · exact (readBytes_payload_ofBytes_encodePacket seq _ c).trans all_one_payload
  · exact (readBytes_seq_ofBytes_encodePacket _ payload c).trans all_zero_seq
  · exact (readBytes_seq_ofBytes_encodePacket _ payload c).trans all_one_seq

/-- Settles O32: an address outside the three fields lies outside the space, where canonical contents read alike. -/
theorem encodeStoresToTheThreeFieldsOnly : Obligations.EncodeStoresToTheThreeFieldsOnly := by
  intro seq payload c s t hwf hexec
  obtain rfl := exec_next_iff.1 hexec
  refine ⟨fun a hseq hpay hsum => ?_, commandEffect_pending _ s, commandEffect_outputs _ s⟩
  have outside := pktLen_le_of_outside_fields hseq hpay hsum
  have packet_wf : (Memory.ofBytes (encodePacket seq payload c)).wf := ofBytes_wf _ (by simp)
  rw [commandEffect_encode_pkt, readAt_of_wf _ packet_wf a outside, readAt_of_wf _ hwf a outside]

/-- Settles O33: the three elements after ENCODE are the same from every state, so also from the state it leaves. -/
theorem encodeDependsOnItsFrameAlone : Obligations.EncodeDependsOnItsFrameAlone :=
  fun seq payload c s s' => ⟨_, _, _, exec_eq (.encode seq payload c) s, exec_eq (.encode seq payload c) s',
    commandEffect_encode_block seq payload c s s', exec_eq (.encode seq payload c) _,
    commandEffect_encode_block seq payload c _ s⟩
end

section
/-! IllegalCommand and the responses: which frames are illegal and by which cause, what taking the exception leaves, and
the one response of every frame over a whole run (spec 60_exceptions.md R130 to R134, R144). -/

namespace Sys2Proof

/-! ### The causes of IllegalCommand -/

/-- The frames that R132 gives a cause, each described by the frame's bytes alone and without an order of checks. -/
def IllegalCause.Applies (f : Frame) : IllegalCause → Prop
  | .badOpcode => f.op ≠ 0x01 ∧ f.op ≠ 0x02 ∧ f.op ≠ 0x03 ∧ f.op ≠ 0x10
  | .badLength =>
    ((f.op = 0x01 ∨ f.op = 0x03) ∧ f.length ≠ 1) ∨ (f.op = 0x02 ∧ f.length ≠ 2) ∨ (f.op = 0x10 ∧ f.length ≠ 14)
  | .badReserved => f.op = 0x10 ∧ f.length = 14 ∧ (f.args.getD 0 0).extractLsb' 1 7 ≠ 0

/-- R64: the field `rsv` is the seven bits that the mask 0xFE keeps. -/
theorem extractLsb'_reserved_eq_zero_iff (flags : Byte) : flags.extractLsb' 1 7 = 0 ↔ flags &&& 0xFE = 0 := by
  revert flags
  decide

theorem length_ne_one_iff {op : Byte} {args : List Byte} : (⟨op, args⟩ : Frame).length ≠ 1 ↔ args ≠ [] := by
  simp [Frame.length]

theorem length_ne_succ_iff {op : Byte} {args : List Byte} {n : Nat} :
    (⟨op, args⟩ : Frame).length ≠ n + 1 ↔ args.length ≠ n := by
  simp [Frame.length]

theorem decode_badOpcode {f : Frame} (h01 : f.op ≠ opCrcinit) (h02 : f.op ≠ opCrcbyte) (h03 : f.op ≠ opCrcfin)
    (h10 : f.op ≠ opEncode) : decode f = .error .badOpcode := by
  rw [decode, if_neg h01, if_neg h02, if_neg h03, if_neg h10]

/-- A frame that has a cause's description is rejected with that cause. -/
theorem decode_of_applies {f : Frame} {c : IllegalCause} (h : c.Applies f) : decode f = .error c := by
  cases c with
  | badOpcode =>
    obtain ⟨h01, h02, h03, h10⟩ := h
    exact decode_badOpcode h01 h02 h03 h10
  | badLength =>
    obtain ⟨op, args⟩ := f
    obtain ⟨rfl | rfl, hlen⟩ | ⟨rfl, hlen⟩ | ⟨rfl, hlen⟩ := h
    · exact decode_crcinit_badLength (length_ne_one_iff.1 hlen)
    · exact decode_crcfin_badLength (length_ne_one_iff.1 hlen)
    · exact decode_crcbyte_badLength (length_ne_succ_iff.1 hlen)
    · exact decode_encode_badLength (length_ne_succ_iff.1 hlen)
  | badReserved =>
    obtain ⟨op, args⟩ := f
    obtain ⟨rfl, hlen, hflags⟩ := h
    match args, hlen with
    | flags :: rest, hlen =>
      have hrest : rest.length = 12 := Nat.add_right_cancel (m := 2) hlen
      exact decode_encode_badReserved hrest (mt (extractLsb'_reserved_eq_zero_iff flags).2 hflags)

/-- A frame of ENCODE's opcode and length is its encoding when the reserved bits are clear. -/
theorem exists_eq_encode_of_reserved_clear {args : List Byte} (hlen : args.length = 13)
    (hflags : (args.getD 0 0).extractLsb' 1 7 = 0) : ∃ i, (⟨opEncode, args⟩ : Frame) = encode i := by
  match args, hlen with
  | flags :: rest, hlen =>
    obtain ⟨seq, payload, rfl⟩ := exists_be32_append_be64 (Nat.succ.inj hlen)
    obtain ⟨c, rfl⟩ := (and_0xFE_eq_zero_iff flags).1 ((extractLsb'_reserved_eq_zero_iff flags).1 hflags)
    exact ⟨.encode seq payload c, rfl⟩

/-- Every frame spells a command or has a cause's description (R67). -/
theorem exists_encode_or_applies (f : Frame) : (∃ i, f = encode i) ∨ ∃ c : IllegalCause, c.Applies f := by
  obtain ⟨op, args⟩ := f
  by_cases h01 : op = opCrcinit
  · subst h01
    by_cases hargs : args = []
    · exact .inl ⟨.crcinit, by rw [hargs, encode]⟩
    · exact .inr ⟨.badLength, .inl ⟨.inl rfl, length_ne_one_iff.2 hargs⟩⟩
  by_cases h02 : op = opCrcbyte
  · subst h02
    by_cases hlen : args.length = 1
    · obtain ⟨imm8, rfl⟩ := List.length_eq_one_iff.1 hlen
      exact .inl ⟨.crcbyte imm8, rfl⟩
    · exact .inr ⟨.badLength, .inr (.inl ⟨rfl, length_ne_succ_iff.2 hlen⟩)⟩
  by_cases h03 : op = opCrcfin
  · subst h03
    by_cases hargs : args = []
    · exact .inl ⟨.crcfin, by rw [hargs, encode]⟩
    · exact .inr ⟨.badLength, .inl ⟨.inr rfl, length_ne_one_iff.2 hargs⟩⟩
  by_cases h10 : op = opEncode
  · subst h10
    by_cases hlen : args.length = 13
    · by_cases hflags : (args.getD 0 0).extractLsb' 1 7 = 0
      · exact .inl (exists_eq_encode_of_reserved_clear hlen hflags)
      · exact .inr ⟨.badReserved, rfl, congrArg (· + 1) hlen, hflags⟩
    · exact .inr ⟨.badLength, .inr (.inr ⟨rfl, length_ne_succ_iff.2 hlen⟩)⟩
  · exact .inr ⟨.badOpcode, h01, h02, h03, h10⟩

/-- R132, R133: the decoder reports a cause exactly on the frames of its description, since it answers once. -/
theorem decode_eq_error_iff {f : Frame} {c : IllegalCause} : decode f = .error c ↔ c.Applies f := by
  refine ⟨fun h => ?_, decode_of_applies⟩
  obtain ⟨i, rfl⟩ | ⟨c', hc'⟩ := exists_encode_or_applies f
  · cases (decode_encode i).symm.trans h
  · cases (decode_of_applies hc').symm.trans h
    exact hc'

theorem code_eq_one_or_two_or_three (c : IllegalCause) : c.code = 1 ∨ c.code = 2 ∨ c.code = 3 := by
  cases c with
  | badOpcode => exact .inl rfl
  | badLength => exact .inr (.inl rfl)
  | badReserved => exact .inr (.inr rfl)

end Sys2Proof

namespace Sys2Proof.Machine

/-! ### Steps and runs -/

/-- R131: an illegal frame is consumed and answered, and nothing else happens. -/
theorem step_illegal_frame {s : State} {f : Frame} {rest : List HostAction} {c : IllegalCause}
    (hp : s.pending = .frame f :: rest) (hd : decode f = .error c) :
    step s = .next (raiseIllegal c (s.setPending rest)) := by
  rw [step_cons hp, actionEffect_frame_error hd]

/-- R130, R162: no step stops. -/
theorem exists_step (s : State) : ∃ t, step s = .next t := by
  cases hp : s.pending with
  | nil => exact ⟨s, step_nil hp⟩
  | cons a rest => exact ⟨_, step_cons hp⟩

theorem exists_runsTo (n : Nat) (s : State) : ∃ t, runsTo n s t := by
  induction n generalizing s with
  | zero => exact ⟨s, runsTo_zero.2 rfl⟩
  | succ n ih =>
    obtain ⟨u, hstep⟩ := exists_step s
    obtain ⟨t, hrun⟩ := ih u
    exact ⟨t, runsTo_succ.2 ⟨u, hstep, hrun⟩⟩

/-! ### Responses -/

theorem responseTo_of_decode_ok {f : Frame} {i : Instr} (h : decode f = .ok i) : responseTo f = .ok := by
  simp only [responseTo, h]

theorem responseTo_of_decode_error {f : Frame} {c : IllegalCause} (h : decode f = .error c) :
    responseTo f = .err c.code := by
  simp only [responseTo, h]

theorem frames_cons (a : HostAction) (l : List HostAction) : frames (a :: l) = frames [a] ++ frames l :=
  List.filterMap_append (l := [a]) (l' := l)

/-- R134: actions taken in a row add one response per frame among them, in the order of the frames. -/
theorem takeAll_responses (l : List HostAction) (s : State) :
    responses (takeAll l s).outputs = responses s.outputs ++ (frames l).map responseTo := by
  induction l generalizing s with
  | nil => exact (List.append_nil _).symm
  | cons a l ih => rw [takeAll, ih, actionEffect_responses, frames_cons a l, List.map_append, List.append_assoc]

end Sys2Proof.Machine

open Sys2Proof Sys2Proof.Machine

/-- Settles O19: the three descriptions and the commands' frames cover all frames, and the decoder answers each once. -/
theorem illegalFramesReportTheFirstCause : Obligations.IllegalFramesReportTheFirstCause :=
  ⟨fun _ => ⟨decode_eq_error_iff, decode_eq_error_iff, decode_eq_error_iff⟩, rfl, rfl, rfl⟩

/-- Settles O49, by induction on the number of steps. -/
theorem everyRunCompletes : Obligations.EveryRunCompletes := exists_runsTo

/-- Settles O50: a run of as many steps as there are actions takes them all, each with its own responses. -/
theorem everyFrameGetsOneResponseInOrder : Obligations.EveryFrameGetsOneResponseInOrder := by
  refine ⟨fun s => ?_, fun f => ?_⟩
  · exact ⟨_, runsTo_takeAll s.pending s [] (List.append_nil _).symm, rfl, takeAll_responses s.pending s⟩
  · cases hd : decode f with
    | ok i => exact .inl ⟨i, rfl, responseTo_of_decode_ok hd⟩
    | error c => exact .inr ⟨c, rfl, responseTo_of_decode_error hd, code_eq_one_or_two_or_three c⟩

/-- Settles O39: raising IllegalCommand only appends the response. -/
theorem illegalFrameChangesNothingAndAnswersItsCode : Obligations.IllegalFrameChangesNothingAndAnswersItsCode :=
  fun _ _ _ _ => step_illegal_frame

/-- Settles O43: a step with no action to take. -/
theorem waitingChangesNothing : Obligations.WaitingChangesNothing := fun _ => step_nil
end

section
/-! Reset, and what does and does not disturb an open stream (spec 70_reset_and_hazards.md R150, R155). -/

namespace Sys2Proof.Machine

/-- After a reset the transport would get the sixteen bytes drawn (R150). -/
theorem applyReset_wire (d : ResetDraw) (s : State) : (applyReset d s).wire = d.pkt.toList :=
  readBytes_ofBytes_toList d.pkt

/-! ### Actions that do not disturb a stream -/

theorem feeds_cons_eq_some_iff {a : HostAction} {l : List HostAction} {data : List Byte} :
    feeds (a :: l) = some data ↔ ∃ b bs, streamBytes a = some b ∧ feeds l = some bs ∧ data = b ++ bs := by
  rw [feeds]
  cases streamBytes a with
  | none => simp
  | some b =>
    cases feeds l with
    | none => simp
    | some bs => simp [eq_comm]

/-- R155: undisturbing actions in a row run the register over their CRCBYTEs' bytes in order, and keep PKT. -/
theorem takeAll_of_feeds {l : List HostAction} {data : List Byte} (h : feeds l = some data) (s : State) :
    (takeAll l s).crc = crcUpdate s.crc data ∧ (takeAll l s).pkt = s.pkt := by
  induction l generalizing data s with
  | nil => cases h; exact ⟨rfl, rfl⟩
  | cons a l ih =>
    obtain ⟨b, bs, ha, hl, rfl⟩ := feeds_cons_eq_some_iff.1 h
    obtain ⟨head_crc, head_pkt⟩ := actionEffect_stream ha s
    obtain ⟨tail_crc, tail_pkt⟩ := ih hl (actionEffect a s)
    rw [takeAll, crcUpdate_append, ← head_crc, ← head_pkt]
    exact ⟨tail_crc, tail_pkt⟩

/-! ### An ENCODE inside a stream -/

/-- A stream goes on from the register that an ENCODE leaves: what it was fed before is lost. -/
theorem takeAll_present_encode_crcbyte_crcfin_csum (seq : Word) (payload : DWord) (c : Bool) (b : Byte) (s : State) :
    (takeAll (present [.encode seq payload c, .crcbyte b, .crcfin]) s).csum =
      crcFinal (crcByte (crcUpdate Config.crcInit (checksumInput seq payload)) b) := by
  simp only [takeAll_present_cons]
  rfl

/-- The running value that the ENCODE of the golden packet (R115) leaves in CRC. -/
theorem crcUpdate_checksumInput_golden :
    crcUpdate Config.crcInit (checksumInput 0x00000001 0x1234567890ABCDEF) = 0xC41ADFEF := by
  decide +kernel

end Sys2Proof.Machine

open Sys2Proof.Machine

/-- Settles O52: the run takes all the actions, each of which feeds the register its own bytes. -/
theorem readsIllegalFramesAndCrcfinDoNotDisturbAStream :
    Obligations.ReadsIllegalFramesAndCrcfinDoNotDisturbAStream :=
  fun s _ h => ⟨_, runsTo_takeAll s.pending s [] (List.append_nil _).symm, takeAll_of_feeds h s⟩

/-- Settles O40: the effect of the reset on the state from which it has been taken. -/
theorem resetLoadsTheDraw : Obligations.ResetLoadsTheDraw :=
  fun s d rest hp => ⟨_, step_cons hp, rfl, rfl, applyReset_wire d (s.setPending rest), rfl, rfl⟩

/-- Settles O53: CSUM comes from the register ENCODE left and the one byte after it; the two checksums are evaluated. -/
theorem encodeInsideAStreamDisturbsIt : Obligations.EncodeInsideAStreamDisturbsIt := by
  intro s rest hp
  have value : crcFinal (crcByte 0xC41ADFEF 0x32) = 0x07594B49 := by decide +kernel
  have differs : 0x07594B49 ≠ compute [0x31, 0x32] := by decide +kernel
  have csum : (takeAll (present [.crcinit, .crcbyte 0x31, .encode 1 0x1234567890ABCDEF false, .crcbyte 0x32, .crcfin])
      s).csum = 0x07594B49 := by
    rw [takeAll_present_cons, takeAll_present_cons, takeAll_present_encode_crcbyte_crcfin_csum,
      crcUpdate_checksumInput_golden, value]
  exact ⟨_, runsTo_takeAll _ s rest hp, csum, value.symm, fun h => differs (csum.symm.trans h)⟩
end
